-- ==== Sys2Proof/Word.lean ====
section
/-! DEFINITION. The bit vectors of the block (spec 00_scope.md R6, R7, R10): every value is an unsigned bit
vector, bit 0 the least significant. Nothing is wider than the 13-bit operation word, and no value is ever
sign-extended, added or compared by magnitude (R10).

The notation of R9 in Lean: `v[i]` is `v.getLsbD i`; `v[hi:lo]` is `v.extractLsb' lo (hi - lo + 1)`; `xor`, `or`
are `^^^`, `|||`; `zext_N` is `setWidth N` on a narrower vector; `cat(a, b)` is `a ++ b`. -/

namespace Sys2Proof

/-- An external operand or result of `ENC` and `DEC`, and the result byte `Y` (R27, R71). -/
abbrev Byte := BitVec 8

/-- A 7-bit codeword, dividend or correction mask (R6: `N` = 7). -/
abbrev Codeword := BitVec 7

/-- A 4-bit message (R6: `K` = 4). -/
abbrev Message := BitVec 4

/-- A 4-bit generator polynomial (R6). -/
abbrev Generator := BitVec 4

/-- A 3-bit remainder or syndrome (R6: `N - K` = 3). -/
abbrev Syndrome := BitVec 3

/-- A 13-bit operation word `W[12:0]` (30_encoding.md R70, R75). -/
abbrev OpWord := BitVec 13

end Sys2Proof
end

