-- ==== Sys2Proof/Config.lean ====
section
/-! DEFINITION. What an implementation fixes and the spec leaves open. The spec leaves no computed value open; it
leaves open one parameter, the settling time (92_eei_decisions.md D13, 93_implementation_defined.md U6), and what an
output shows before that time has passed (U7). Both are uninterpreted constants, so no proof can use a value of them.
They are used by the timed port protocol (Machine/Protocol.lean) only. The constants `GEN` and `SYNROM`, which the
spec does fix, stand in Machine/Constants.lean. -/

namespace Sys2Proof.Config

/-- `T_SETTLE` less one unit of time (U6). No value of it is known. Log entry 8. -/
opaque settleMargin : Nat

/-- `T_SETTLE`, "a parameter of the implementation, greater than zero, that this spec does not fix"
(70_reset_and_hazards.md R194), counted in whole units of time. Log entry 8. -/
def tSettle : Nat := settleMargin + 1

/-- FREE VALUE: the bits an output shows at the `n`-th sample taken before `T_SETTLE` has passed (U7: `any value`).
Log entry 8. -/
opaque unsettledOutput : Nat → Byte

end Sys2Proof.Config
end

