-- ==== Sys2Proof/Machine/Constants.lean ====
section
/-! DEFINITION. The two hardwired constants of the block (10_state.md R25, R26). They are configuration, not state:
no port reads, writes or changes them, and they have their values at all times (R30). -/

namespace Sys2Proof.Machine

/-- `GEN`, the generator polynomial x³+x+1, `4'b1011` (R25). -/
def gen : Generator := 0b1011

/-- The contents of `SYNROM` at indices 0 to 7 (43_syndrome_table.md R151): "As a list indexed 0 to 7:
`[0, 1, 2, 8, 4, 64, 16, 32]`". -/
def synromEntries : Vector Codeword 8 := #v[0, 1, 2, 8, 4, 64, 16, 32]

/-- `SYNROM[s]`: the read of one whole 7-bit entry; every 3-bit index is legal (20_memory.md R41, R44). -/
def synrom (s : Syndrome) : Codeword := synromEntries.get s.toFin

end Sys2Proof.Machine
end

