-- ==== Sys2Proof/Syntax.lean ====
section
/-! DEFINITION. The four operations (30_encoding.md R79: "The operation set is closed"), one constructor per row of
spec/opcode_table.json, and what an operation word can spell. -/

namespace Sys2Proof

/-- An operation with its operand bits, in the formats of 30_encoding.md R61 to R64. Every operand value is legal
(R74). -/
inductive Instr where
  /-- `REM d, g` (40_remainder.md R90): the divider on a 7-bit dividend and a 4-bit generator. -/
  | rem (d : Codeword) (g : Generator)
  /-- `ENC b` (41_encoder.md R110): encode the message in bits 3:0 of `b`. -/
  | enc (b : Byte)
  /-- `DEC b` (42_decoder.md R130): decode the received codeword in bits 6:0 of `b`. -/
  | dec (b : Byte)
  /-- `SYN s` (43_syndrome_table.md R152): read the correction table. -/
  | syn (s : Syndrome)
  deriving DecidableEq, Repr

/-- The four units, each with its own port group (00_scope.md R1, 10_state.md R27). -/
inductive PortGroup where
  | rem | enc | dec | syn
  deriving DecidableEq, Repr

/-- The unit an operation evaluates. -/
def Instr.unit : Instr → PortGroup
  | .rem _ _ => .rem
  | .enc _ => .enc
  | .dec _ => .dec
  | .syn _ => .syn

/-- What an operation word spells: an operation, or none (30_encoding.md R72, R73). -/
inductive Decoded where
  /-- The word spells this operation. -/
  | operation (i : Instr)
  /-- The word matches no row of the opcode table and is refused under this name (R73). -/
  | invalidOperationWord
  deriving DecidableEq, Repr

end Sys2Proof
end

