-- ==== Sys2Proof/WellFormed.lean ====
section
/-! DEFINITION. The opcode table of 30_encoding.md R70 as data, and when a word is one of its words. An operation is
well-formed whatever its operands (R74); only an operation WORD can be ill-formed (R73). -/

namespace Sys2Proof

/-- One row of the table of R70: a word `W` selects it when `(W and mask) = pattern` (the table's column `match`). -/
structure OpcodeRow where
  unit    : PortGroup
  pattern : OpWord
  mask    : OpWord
  deriving DecidableEq, Repr

/-- The four rows of R70 (spec/opcode_table.json). -/
def opcodeTable : List OpcodeRow :=
  [ { unit := .rem, pattern := 0x0000, mask := 0x1800 },
    { unit := .enc, pattern := 0x0800, mask := 0x1F00 },
    { unit := .dec, pattern := 0x1000, mask := 0x1F00 },
    { unit := .syn, pattern := 0x1800, mask := 0x1FF8 } ]

/-- "A word `W` selects the row for which `(W and mask) = match`." (R70) -/
def OpcodeRow.selects (r : OpcodeRow) (w : OpWord) : Bool := w &&& r.mask == r.pattern

/-- A word is well-formed when it selects a row of the table (R70, R73). -/
def validWord (w : OpWord) : Bool := opcodeTable.any (·.selects w)

/-- Every operand combination is legal: "there is no illegal operand encoding at the hardware ports" (R74). The
ranges below are those R74 counts (2048, 256, 256 and 8 operands); the operand types already hold them. -/
def Instr.wellFormed : Instr → Bool
  | .rem d g => d.toNat < 128 && g.toNat < 16
  | .enc b => b.toNat < 256
  | .dec b => b.toNat < 256
  | .syn s => s.toNat < 8

end Sys2Proof
end

