-- ==== Sys2Proof/Decode.lean ====
section
/-! DEFINITION. Reading an operation from its 13-bit word and writing it as one (30_encoding.md R70 to R73), the
pseudo-operation `SYND` (R77), and the host's numbering of table words. The operation word is "not a signal of the
hardware" (R70): it is how a host's operation is written down. -/

namespace Sys2Proof

/-- `decode_word` of R72, total on 13-bit words; a word of no row is rejected by name (R73). -/
def decodeWord (w : OpWord) : Decoded :=
  if w.extractLsb' 11 2 = 0 then .operation (.rem (w.extractLsb' 4 7) (w.extractLsb' 0 4))
  else if w.extractLsb' 11 2 = 1 ∧ w.extractLsb' 8 3 = 0 then .operation (.enc (w.extractLsb' 0 8))
  else if w.extractLsb' 11 2 = 2 ∧ w.extractLsb' 8 3 = 0 then .operation (.dec (w.extractLsb' 0 8))
  else if w.extractLsb' 11 2 = 3 ∧ w.extractLsb' 3 8 = 0 then .operation (.syn (w.extractLsb' 0 3))
  else .invalidOperationWord

/-- `word` of R72: the word that spells an operation. -/
def encodeWord : Instr → OpWord
  | .rem d g => 0b00#2 ++ d ++ g
  | .enc b => 0b01000#5 ++ b
  | .dec b => 0b10000#5 ++ b
  | .syn s => 0b1100000000#10 ++ s

/-- The pseudo-operation `SYND c`, "the syndrome of the 7-bit value `c`", which expands to `REM c, 0xB` (R77). -/
def synd (c : Codeword) : Instr := .rem c Machine.gen

/-- A word that spells no operation: `0x1FFF`, one of the invalid words of 95_test_vectors.md section 3. -/
def invalidWord : OpWord := 0x1FFF

/-- The operation word that is the number `w` of `nbits` bits, as the opcode table numbers bits: bit 0 is `W[0]`.
A number of more than 13 bits is no operation word ("Every operation word is 13 bits", R75) and stands for an
invalid one. Log entry 5. -/
def tableWord (nbits w : Nat) : OpWord :=
  if w % 2 ^ nbits < 2 ^ 13 then BitVec.ofNat 13 (w % 2 ^ nbits) else invalidWord

/-- The operation this decoder reads from a table word, or none where it refuses. -/
def decodeTableWord (nbits w : Nat) : Option Instr :=
  match decodeWord (tableWord nbits w) with
  | .operation i => some i
  | .invalidOperationWord => none

end Sys2Proof
end

