-- ==== Sys2Proof/Machine/State.lean ====
section
/-! DEFINITION. What a step reads and changes. The block has no register, flag, memory or hidden state
(10_state.md R20 to R24: "A model's state type for the block is the unit type"). So State holds only what stands
around the block: the wires of its input ports, which the host drives (R27), and the host's own sequence of
operations and list of results, which R21 and 70_reset_and_hazards.md R197 let a model keep. The output ports are
functions of the inputs (R28) and are computed, never stored: see Machine/Ops.lean. -/

namespace Sys2Proof.Machine

/-- One observation of the host: "the pair (operands, result) and nothing else" (70_reset_and_hazards.md R197), the
result written as the byte `Y` of 30_encoding.md R71. -/
structure Observation where
  operation : Instr
  result    : Byte
  deriving DecidableEq, Repr

/-- The input port wires as the host last drove them, and the host's bookkeeping. -/
structure State where
  /-- Port `rem_dividend[6:0]` (10_state.md R27). -/
  remDividend  : Codeword
  /-- Port `rem_generator[3:0]` (R27). -/
  remGenerator : Generator
  /-- Port `enc_message[7:0]` (R27). -/
  encMessage   : Byte
  /-- Port `dec_codeword[7:0]` (R27). -/
  decCodeword  : Byte
  /-- Port `syn_syndrome[2:0]` (R27). -/
  synSyndrome  : Syndrome
  /-- The operations the host has still to perform, as operation words, first one first. The model's bookkeeping
  (R21). Log entries 1 and 4. -/
  pending      : List OpWord
  /-- What the host has observed, oldest first (R197). The model's bookkeeping. Log entries 1 and 6. -/
  observed     : List Observation
  deriving DecidableEq, Repr

/-- Faults: none. "the fault outcome has no constructor that any operation can produce" (60_exceptions.md R176;
R170: the block raises no exception). Safe: nothing stops with a fault. -/
inductive Fault
  deriving DecidableEq, Repr

/-- Why a step can have no meaning. -/
inductive Refusal where
  /-- Raised by an arm of `exec` for an operation that has no meaning yet. No arm of this model raises it. Safe. -/
  | notModelled (mnemonic : String)
  /-- Raised by `step` when the next word matches no row of the opcode table: `invalid operation word`
  (30_encoding.md R73). Safe: the word gets no result (R73: "This errs toward unprovable"). -/
  | invalidOperationWord
  deriving DecidableEq, Repr

/-- Before any operation: nothing pending, nothing observed. The spec has no reset and no reset value
(10_state.md R30, 70_reset_and_hazards.md R190); that the undriven input wires read as zero is a DESIGN CHOICE (log
entry 2). -/
def State.reset : State :=
  { remDividend := 0, remGenerator := 0, encMessage := 0, decCodeword := 0, synSyndrome := 0
    pending := [], observed := [] }

end Sys2Proof.Machine
end

