-- ==== Sys2Proof/Machine/Flags.lean ====
section
/-! DEFINITION. Conditions. The block has no flag: "No operation sets a flag and none reads one" (10_state.md R22).
The one condition it tests is internal to `DEC` and is not kept. -/

namespace Sys2Proof.Machine

/-- `dec_syndrome = 0`, "an internal value used once inside the same operation" (10_state.md R22, 42_decoder.md R132
step 3). -/
def syndromeIsZero (s : Syndrome) : Bool := s == 0

end Sys2Proof.Machine
end

