-- ==== Sys2Proof/Machine/Operands.lean ====
section
/-! DEFINITION. How each unit forms its working values from its input bits and its output from its working values
(30_encoding.md R66), and the result byte (R71). There are no immediates, no sign extension and no scaling. -/

namespace Sys2Proof.Machine

/-- `enc_masked = enc_message[3:0]`: bits 7:4 are ignored (R66, 41_encoder.md R113). -/
def encMasked (b : Byte) : Message := b.extractLsb' 0 4

/-- `enc_shifted = cat(enc_masked, 3'b000)` (R66). -/
def encShifted (b : Byte) : Codeword := encMasked b ++ 0#3

/-- `dec_masked = dec_codeword[6:0]`: bit 7 is ignored (R66, 42_decoder.md R133). -/
def decMasked (b : Byte) : Codeword := b.extractLsb' 0 7

/-- The message bits 6:3 of a codeword (30_encoding.md R65). -/
def messageBits (c : Codeword) : Message := c.extractLsb' 3 4

/-- The check bits 2:0 of a codeword (R65). -/
def checkBits (c : Codeword) : Syndrome := c.extractLsb' 0 3

/-- `zext_8` of a 3-bit `REM` result: `Y[7:3] = 0` (R71). -/
def remByte (r : Syndrome) : Byte := r.setWidth 8

/-- `zext_8` of a 7-bit `SYN` mask or `ENC` codeword: bit 7 is 0 (R66, R71). -/
def codewordByte (c : Codeword) : Byte := c.setWidth 8

/-- `zext_8` of a 4-bit decoded message: bits 7:4 are 0 (R66). -/
def messageByte (m : Message) : Byte := m.setWidth 8

end Sys2Proof.Machine
end

