-- ==== Sys2Proof/Machine/Units.lean ====
section
/-! DEFINITION. The four pure functions `rem`, `enc`, `dec`, `syn`, with every internal value the spec names
(10_state.md R29) as a definition of its own. -/

namespace Sys2Proof.Machine

/-- One stage of the divider: "examine bit `k`; if set, XOR" with the shifted generator `g7 << n` (40_remainder.md
R92). -/
def divStage (k n : Nat) (g : Generator) (d : Codeword) : Codeword :=
  if d.getLsbD k then d ^^^ (g.setWidth 7 <<< n) else d

/-- `d1`: bit 6 examined (40_remainder.md R92). -/
def remD1 (d : Codeword) (g : Generator) : Codeword := divStage 6 3 g d

/-- `d2`: bit 5 of `d1`, not of the dividend, examined (R92, R93). -/
def remD2 (d : Codeword) (g : Generator) : Codeword := divStage 5 2 g (remD1 d g)

/-- `d3`: bit 4 of `d2` examined (R92, R93). -/
def remD3 (d : Codeword) (g : Generator) : Codeword := divStage 4 1 g (remD2 d g)

/-- `d4`: bit 3 of `d3` examined (R92, R93). -/
def remD4 (d : Codeword) (g : Generator) : Codeword := divStage 3 0 g (remD3 d g)

/-- `rem(d, g)`: "The remaining low 3 bits are the result" (R92), for all 16 generators (R91, R97). -/
def rem (d : Codeword) (g : Generator) : Syndrome := (remD4 d g).extractLsb' 0 3

/-- `enc_r = rem(enc_shifted, GEN)` (41_encoder.md R112 step 3; the generator is tied to `GEN`, R111). -/
def encR (b : Byte) : Syndrome := rem (encShifted b) gen

/-- `cw = enc_shifted or zext_7(enc_r)` (R112 step 4). -/
def encCw (b : Byte) : Codeword := encShifted b ||| (encR b).setWidth 7

/-- `enc(b) = zext_8(cw)` (R112). -/
def enc (b : Byte) : Byte := codewordByte (encCw b)

/-- `dec_syndrome = rem(dec_masked, GEN)` (42_decoder.md R132 step 2; generator and table are tied, R131). -/
def decSyndrome (b : Byte) : Syndrome := rem (decMasked b) gen

/-- `dec_mask`: no correction for a zero syndrome, else the table's mask (R132 steps 3 and 4). -/
def decMask (b : Byte) : Codeword :=
  if syndromeIsZero (decSyndrome b) then 0 else synrom (decSyndrome b)

/-- `dec_corrected = dec_masked xor dec_mask` (R132 step 4). -/
def decCorrected (b : Byte) : Codeword := decMasked b ^^^ decMask b

/-- `dec(b) = zext_8(dec_corrected[6:3])` (R132 step 5). -/
def dec (b : Byte) : Byte := messageByte (messageBits (decCorrected b))

/-- `syn(s) = SYNROM[s]` (43_syndrome_table.md R152). -/
def syn (s : Syndrome) : Codeword := synrom s

end Sys2Proof.Machine
end

