-- ==== Sys2Proof/Machine/Ops.lean ====
section
/-! DEFINITION. The shared operations of the meanings: driving a port group's inputs, reading its output port,
sampling (70_reset_and_hazards.md R194, R197), and taking the next word of the host's sequence. No operation takes an
exception, because the block has none (60_exceptions.md R170, R174), and none reads or writes memory
(20_memory.md R40). -/

namespace Sys2Proof.Machine

/-- Drive the input ports of `REM`. -/
def State.driveRem (s : State) (d : Codeword) (g : Generator) : State :=
  { s with remDividend := d, remGenerator := g }

/-- Drive the input port of `ENC`. -/
def State.driveEnc (s : State) (b : Byte) : State := { s with encMessage := b }

/-- Drive the input port of `DEC`. -/
def State.driveDec (s : State) (b : Byte) : State := { s with decCodeword := b }

/-- Drive the input port of `SYN`. -/
def State.driveSyn (s : State) (k : Syndrome) : State := { s with synSyndrome := k }

/-- Output port `rem_result[2:0]`: a function of the present inputs of its own group (10_state.md R28). -/
def State.remResult (s : State) : Syndrome := rem s.remDividend s.remGenerator

/-- Output port `enc_codeword[7:0]` (R28). -/
def State.encCodeword (s : State) : Byte := enc s.encMessage

/-- Output port `dec_message[7:0]` (R28). -/
def State.decMessage (s : State) : Byte := dec s.decCodeword

/-- Output port `syn_mask[6:0]` (R28). -/
def State.synMask (s : State) : Codeword := syn s.synSyndrome

/-- The host writes down one more (operands, result) pair, after the earlier ones (70_reset_and_hazards.md R197). -/
def State.record (s : State) (i : Instr) (y : Byte) : State :=
  { s with observed := s.observed ++ [{ operation := i, result := y }] }

/-- Sample `rem_result`; the result byte is zero-extended (30_encoding.md R71). -/
def State.sampleRem (s : State) : State := s.record (.rem s.remDividend s.remGenerator) (remByte s.remResult)

/-- Sample `enc_codeword` (R71: `Y = enc_codeword`). -/
def State.sampleEnc (s : State) : State := s.record (.enc s.encMessage) s.encCodeword

/-- Sample `dec_message` (R71: `Y = dec_message`). -/
def State.sampleDec (s : State) : State := s.record (.dec s.decCodeword) s.decMessage

/-- Sample `syn_mask`; the result byte is zero-extended (R71). -/
def State.sampleSyn (s : State) : State := s.record (.syn s.synSyndrome) (codewordByte s.synMask)

/-- The next word of the host's sequence and the state with that word taken off; none when the sequence has ended
(70_reset_and_hazards.md R197). -/
def State.fetch (s : State) : Option (OpWord × State) :=
  match s.pending with
  | [] => none
  | w :: rest => some (w, { s with pending := rest })

/-- The host puts one word in front of its sequence, so that it is the next one performed. Log entry 4. -/
def State.placeWord (s : State) (w : OpWord) : State := { s with pending := w :: s.pending }

end Sys2Proof.Machine
end

