-- ==== Sys2Proof/Machine/Decoder.lean ====
section
/-! DEFINITION. The meaning of `DEC b` (42_decoder.md R130, R132). -/

namespace Sys2Proof.Machine

/-- `DEC b`: the host drives `dec_codeword` and samples `dec_message`. Bit 7 is ignored (R133) and an uncorrectable word gives a defined result (R137). No flag, no exception (42_decoder.md R130, R132). -/
def execDec (b : Byte) (s : State) : Host.Outcome State Fault Refusal :=
  .next (s.driveDec b).sampleDec

end Sys2Proof.Machine
end

