-- ==== Sys2Proof/Machine/Encoder.lean ====
section
/-! DEFINITION. The meaning of `ENC b` (41_encoder.md R110, R112). -/

namespace Sys2Proof.Machine

/-- `ENC b`: the host drives `enc_message` and samples `enc_codeword`. Bits 7:4 of the operand are ignored (R113). No flag, no exception (41_encoder.md R110, R112). -/
def execEnc (b : Byte) (s : State) : Host.Outcome State Fault Refusal :=
  .next (s.driveEnc b).sampleEnc

end Sys2Proof.Machine
end

