-- ==== Sys2Proof/Machine/Remainder.lean ====
section
/-! DEFINITION. The meaning of `REM d, g` (40_remainder.md R90, R92). -/

namespace Sys2Proof.Machine

/-- `REM d, g`: the host drives `rem_dividend` and `rem_generator` and samples `rem_result`. Every generator is accepted (R91), including those with bit 3 clear (R97). No flag, no exception (40_remainder.md R90, R92). -/
def execRem (d : Codeword) (g : Generator) (s : State) : Host.Outcome State Fault Refusal :=
  .next (s.driveRem d g).sampleRem

end Sys2Proof.Machine
end

