-- ==== Sys2Proof/Machine/SyndromeTable.lean ====
section
/-! DEFINITION. The meaning of `SYN s` (43_syndrome_table.md R152). -/

namespace Sys2Proof.Machine

/-- `SYN s`: the host drives `syn_syndrome` and samples `syn_mask`. All 8 indices are legal. No flag, no exception (43_syndrome_table.md R152). -/
def execSyn (k : Syndrome) (s : State) : Host.Outcome State Fault Refusal :=
  .next (s.driveSyn k).sampleSyn

end Sys2Proof.Machine
end

