-- ==== Sys2Proof/Machine/Step.lean ====
section
/-! DEFINITION. One step of the model: the host performs the next operation of its sequence. The block itself has
no program counter and no sequencer (10_state.md R21); the sequence is the host's (70_reset_and_hazards.md R197). -/

namespace Sys2Proof.Machine

/-- Perform the next operation word. With no word left the sequence has ended, nothing is driven and nothing is
sampled (log entry 3). A word of no row is refused by name (30_encoding.md R73, 60_exceptions.md R176). -/
def step (s : State) : Host.Outcome State Fault Refusal :=
  match s.fetch with
  | none => .next s
  | some (w, s') =>
    match decodeWord w with
    | .operation i => exec i s'
    | .invalidOperationWord => .refused .invalidOperationWord

/-- `s` with the table word `w` put in front of the host's sequence, where `step` takes its next word. Log
entry 4. -/
def State.withFetchWord (s : State) (nbits w : Nat) : State := s.placeWord (tableWord nbits w)

end Sys2Proof.Machine
end

