-- ==== Sys2Proof/Machine/Protocol.lean ====
section
/-! DEFINITION. The port protocol in time (70_reset_and_hazards.md R191, R194, R197): the host drives the inputs of a
port group, holds them, and samples the group's outputs. A sample taken after the inputs have been held for
`T_SETTLE` gives the unit's value; an earlier one may show any value (93_implementation_defined.md U7), here a free
value. `exec` is the untimed reading of the same protocol ("a model that has no notion of time ... satisfies this
rule by construction", R194); `step` does not use this file. Log entry 8. -/

namespace Sys2Proof.Machine

/-- What a host does at the ports. -/
inductive HostAction where
  /-- Put the operands of `i` on the inputs of its unit's port group. -/
  | drive (i : Instr)
  /-- Hold every input as it is for `t` units of time. -/
  | wait (t : Nat)
  /-- Sample the outputs of one port group. -/
  | sample (u : PortGroup)
  deriving DecidableEq, Repr

/-- The state around the ports in time. -/
structure Timed where
  /-- The input wires and what has been observed. -/
  state   : State
  /-- How long the inputs of `REM` have been unchanged. -/
  remHeld : Nat
  /-- How long the input of `ENC` has been unchanged. -/
  encHeld : Nat
  /-- How long the input of `DEC` has been unchanged. -/
  decHeld : Nat
  /-- How long the input of `SYN` has been unchanged. -/
  synHeld : Nat
  /-- How many samples were taken too early: the counter of the free values. -/
  early   : Nat
  deriving DecidableEq, Repr

/-- How long a port group's inputs have been unchanged. -/
def Timed.held (t : Timed) : PortGroup → Nat
  | .rem => t.remHeld
  | .enc => t.encHeld
  | .dec => t.decHeld
  | .syn => t.synHeld

/-- Drive the inputs of an operation's unit. -/
def State.drive (s : State) : Instr → State
  | .rem d g => s.driveRem d g
  | .enc b => s.driveEnc b
  | .dec b => s.driveDec b
  | .syn k => s.driveSyn k

/-- The operation that the present inputs of a port group spell. -/
def State.present (s : State) : PortGroup → Instr
  | .rem => .rem s.remDividend s.remGenerator
  | .enc => .enc s.encMessage
  | .dec => .dec s.decCodeword
  | .syn => .syn s.synSyndrome

/-- Sample a settled port group. -/
def State.sample (s : State) : PortGroup → State
  | .rem => s.sampleRem
  | .enc => s.sampleEnc
  | .dec => s.sampleDec
  | .syn => s.sampleSyn

/-- A free byte as a port of the group's width shows it, zero-extended to the result byte (10_state.md R27,
30_encoding.md R71). -/
def portByte : PortGroup → Byte → Byte
  | .rem, y => remByte (y.extractLsb' 0 3)
  | .enc, y => y
  | .dec, y => y
  | .syn, y => codewordByte (y.extractLsb' 0 7)

/-- Driving new operands on a group starts its holding time again; the other groups are not touched (10_state.md
R28). Driving the operands that are already there changes no input, so the inputs stay "stable" (R191) and nothing
starts again. DESIGN CHOICE, log entry 11: R194 says "While inputs are changing" and gives that no duration; here a
drive takes no time and changes all inputs of the group at one instant. -/
def Timed.drive (t : Timed) (i : Instr) : Timed :=
  if t.state.present i.unit = i then t
  else
    match i.unit with
    | .rem => { t with state := t.state.drive i, remHeld := 0 }
    | .enc => { t with state := t.state.drive i, encHeld := 0 }
    | .dec => { t with state := t.state.drive i, decHeld := 0 }
    | .syn => { t with state := t.state.drive i, synHeld := 0 }

/-- Time passes with every input held. -/
def Timed.wait (t : Timed) (n : Nat) : Timed :=
  { t with remHeld := t.remHeld + n, encHeld := t.encHeld + n, decHeld := t.decHeld + n, synHeld := t.synHeld + n }

/-- A sample after `T_SETTLE` gives the unit's value (R191, R194); an earlier one a free value (U7). DESIGN CHOICE,
log entry 12: R197 has an operation start with a drive and is silent on a further sample; here every sample, also a
repeated one or one of a group never driven, is written down as one more observation of the operands then present. -/
def Timed.sample (t : Timed) (u : PortGroup) : Timed :=
  if Config.tSettle ≤ t.held u then { t with state := t.state.sample u }
  else { t with state := t.state.record (t.state.present u) (portByte u (Config.unsettledOutput t.early))
                early := t.early + 1 }

/-- One action of the host. -/
def Timed.act (t : Timed) : HostAction → Timed
  | .drive i => t.drive i
  | .wait n => t.wait n
  | .sample u => t.sample u

/-- A list of actions, in order. -/
def Timed.run (t : Timed) (actions : List HostAction) : Timed := actions.foldl Timed.act t

/-- How much time a list of actions takes. -/
def waited : List HostAction → Nat
  | [] => 0
  | .wait n :: rest => n + waited rest
  | .drive _ :: rest => waited rest
  | .sample _ :: rest => waited rest

/-- The action drives this port group. -/
def HostAction.drives (u : PortGroup) : HostAction → Bool
  | .drive i => i.unit == u
  | .wait _ => false
  | .sample _ => false

/-- The action puts other operands than those of `i` on the port group of `i`. -/
def HostAction.disturbs (i : Instr) : HostAction → Bool
  | .drive j => j.unit == i.unit && j != i
  | .wait _ => false
  | .sample _ => false

end Sys2Proof.Machine
end

