-- ==== Sys2Proof/Machine/Written.lean ====
section
/-! DEFINITION. The written syntax of operations (30_encoding.md R76, R77): `REM d, g`, `ENC b`, `DEC b`, `SYN s` and
the pseudo-operation `SYND c`; numbers are decimal with no prefix, hexadecimal with `0x`, binary with `0b`; a comment
starts with `;`. It is notation only: no step uses it. Log entry 9. -/

namespace Sys2Proof.Machine

/-- The mnemonic of an operation (R76). -/
def mnemonic : Instr → List Char
  | .rem _ _ => ['R', 'E', 'M']
  | .enc _ => ['E', 'N', 'C']
  | .dec _ => ['D', 'E', 'C']
  | .syn _ => ['S', 'Y', 'N']

/-- The three forms of a number (R76). -/
inductive NumberForm where
  | decimal | hexadecimal | binary
  deriving DecidableEq, Repr

/-- A number: "decimal with no prefix, hexadecimal with `0x`, binary with `0b`" (R76). DESIGN CHOICE, log entry 9: R76
fixes neither the padding nor the case of the digits when a number is written (R76 shows `0x0A`, R77
`0xB`); here no leading zero is written and hexadecimal digits are lower case, `0xa`. -/
def writtenNumber (n : Nat) : NumberForm → List Char
  | .decimal => Nat.toDigits 10 n
  | .hexadecimal => '0' :: 'x' :: Nat.toDigits 16 n
  | .binary => '0' :: 'b' :: Nat.toDigits 2 n

/-- The operands, with the comma of `REM d, g` (R76). -/
def writtenOperands (f : NumberForm) : Instr → List Char
  | .rem d g => writtenNumber d.toNat f ++ [',', ' '] ++ writtenNumber g.toNat f
  | .enc b => writtenNumber b.toNat f
  | .dec b => writtenNumber b.toNat f
  | .syn s => writtenNumber s.toNat f

/-- The characters of an operation written down (R76). -/
def writtenChars (f : NumberForm) (i : Instr) : List Char := mnemonic i ++ ' ' :: writtenOperands f i

/-- An operation written down (R76). -/
def writeOperation (f : NumberForm) (i : Instr) : String := String.ofList (writtenChars f i)

/-- The pseudo-operation `SYND c` written down (R77). -/
def writeSynd (f : NumberForm) (c : Codeword) : String :=
  String.ofList (['S', 'Y', 'N', 'D', ' '] ++ writtenNumber c.toNat f)

/-- "An operation with its result is written `ENC 0x0A -> 0x53`" (R76). -/
def writeObservation (f : NumberForm) (o : Observation) : String :=
  String.ofList (writtenChars f o.operation ++ [' ', '-', '>', ' '] ++ writtenNumber o.result.toNat f)

/-- The value of one digit character. -/
def digitValue (c : Char) : Option Nat :=
  if '0' ≤ c ∧ c ≤ '9' then some (c.toNat - '0'.toNat)
  else if 'a' ≤ c ∧ c ≤ 'f' then some (c.toNat - 'a'.toNat + 10)
  else if 'A' ≤ c ∧ c ≤ 'F' then some (c.toNat - 'A'.toNat + 10)
  else none

/-- The digits of a number in a base, after those already read into `acc`. -/
def readDigits (base acc : Nat) : List Char → Option Nat
  | [] => some acc
  | c :: cs =>
    match digitValue c with
    | none => none
    | some v => if v < base then readDigits base (acc * base + v) cs else none

/-- A number: "decimal with no prefix, hexadecimal with `0x`, binary with `0b`" (R76). -/
def readNumber : List Char → Option Nat
  | [] => none
  | '0' :: 'x' :: c :: cs => readDigits 16 0 (c :: cs)
  | '0' :: 'b' :: c :: cs => readDigits 2 0 (c :: cs)
  | c :: cs => readDigits 10 0 (c :: cs)

/-- The characters without the blanks before and after them. -/
def trimBlanks (cs : List Char) : List Char :=
  ((cs.dropWhile (· == ' ')).reverse.dropWhile (· == ' ')).reverse

/-- An operand of `w` bits; a number that does not fit is no operand. -/
def readOperand (w : Nat) (cs : List Char) : Option (BitVec w) :=
  match readNumber (trimBlanks cs) with
  | none => none
  | some n => if n < 2 ^ w then some (BitVec.ofNat w n) else none

/-- The operation the characters of a line spell, or none. -/
def readChars (line : List Char) : Option Instr :=
  let text := trimBlanks (line.takeWhile (· != ';'))
  let operands := text.dropWhile (· != ' ')
  match text.takeWhile (· != ' ') with
  | ['R', 'E', 'M'] =>
    match readOperand 7 (operands.takeWhile (· != ',')), readOperand 4 ((operands.dropWhile (· != ',')).drop 1) with
    | some d, some g => some (.rem d g)
    | _, _ => none
  | ['E', 'N', 'C'] => (readOperand 8 operands).map .enc
  | ['D', 'E', 'C'] => (readOperand 8 operands).map .dec
  | ['S', 'Y', 'N'] => (readOperand 3 operands).map .syn
  | ['S', 'Y', 'N', 'D'] => (readOperand 7 operands).map synd
  | _ => none

/-- The operation a line spells, or none (R76, R77). -/
def readOperation (line : String) : Option Instr := readChars line.toList

end Sys2Proof.Machine
end

