-- ==== Sys2Proof/PolynomialReading.lean ====
section
/-! DEFINITION. The polynomial reading of a bit vector (00_scope.md R8), for the statement that `REM` computes the
polynomial remainder (40_remainder.md R94). The machine does not use it. -/

namespace Sys2Proof

open Polynomial

/-- "A bit vector `v` of width `w` stands for the polynomial over GF(2) whose coefficient of x^i is `v[i]`." (R8) -/
noncomputable def polynomialOf {w : Nat} (v : BitVec w) : (ZMod 2)[X] :=
  ∑ i ∈ Finset.range w, if v.getLsbD i then X ^ i else 0

end Sys2Proof
end

