-- ==== Sys2Proof/Safety.lean ====
section
/-! DEFINITION. What the statements speak of: a safe state, the result of an operation taken by itself, the weight of
an error pattern, the valid codewords, and when an observation keeps the spec's promises. -/

namespace Sys2Proof

open Machine

/-- Every word still to be performed spells an operation, so no step can be refused (30_encoding.md R73). -/
def Machine.State.safe (s : State) : Bool := s.pending.all validWord

/-- The result byte `Y` of an operation taken by itself (30_encoding.md R71). -/
def resultByte : Instr → Byte
  | .rem d g => remByte (rem d g)
  | .enc b => enc b
  | .dec b => dec b
  | .syn s => codewordByte (syn s)

/-- How many bits of a vector are set. -/
def weight {w : Nat} (v : BitVec w) : Nat := (List.range w).countP (fun i => v.getLsbD i)

/-- The error pattern `1 << p` on a codeword. -/
def oneBit (p : Nat) : Codeword := 1#7 <<< p

/-- A valid codeword: "one of the 16 values `enc(m)[6:0]`, m = 0..15" (00_scope.md R11). -/
def validCodeword (c : Codeword) : Bool := (List.range 16).any (fun m => encCw (BitVec.ofNat 8 m) == c)

/-- What the spec promises of a result without computing it as the unit does. `REM` with a leading generator bit:
the dividend less the result leaves no remainder (40_remainder.md R94). `ENC`: systematic, and without remainder
(41_encoder.md R114, R115). `DEC`: the message of a codeword at most one bit away (42_decoder.md R136). `SYN`: the
mask's own syndrome is the index (43_syndrome_table.md R153). Each with the fixed zero bits of R31 and R71. -/
def Machine.Observation.lawful (o : Observation) : Bool :=
  match o.operation with
  | .rem d g => o.result.extractLsb' 3 5 == 0 && (!g.getLsbD 3 || rem (d ^^^ o.result.extractLsb' 0 7) g == 0)
  | .enc b => !o.result.getLsbD 7 && o.result.extractLsb' 3 4 == b.extractLsb' 0 4
      && rem (o.result.extractLsb' 0 7) gen == 0
  | .dec b => o.result.extractLsb' 4 4 == 0 && weight (encCw o.result ^^^ b.extractLsb' 0 7) ≤ 1
  | .syn s => !o.result.getLsbD 7 && rem (o.result.extractLsb' 0 7) gen == s && weight o.result ≤ 1

/-- Every observation made so far keeps the spec's promises. -/
def Machine.State.lawful (s : State) : Bool := s.observed.all Observation.lawful

end Sys2Proof
end

