-- ==== Sys2Proof/Certificates/Slice0/Obligations.lean ====
section
/-! DEFINITION. The statements for the provers. Where a statement has a rule of its own, its docstring names it; the
others name the sections they rest on. A completed operation is given as the WHOLE next state (`exec i s = .next t`
with `t` written out), so that each such statement is at once the completion, the result and the frame: the ports of
the other groups, the pending words and the earlier observations are those of `s`. -/

open Sys2Proof Sys2Proof.Machine

/-! ### Words: decoding, encoding, refusing -/

/-- 30_encoding.md R72: "the encoder is its inverse on the valid words", both ways round, for every operation with
every operand value. -/
def Obligations.DecodeAndEncodeAgree : Prop :=
  (∀ i : Instr, decodeWord (encodeWord i) = .operation i) ∧
  (∀ (w : OpWord) (i : Instr), decodeWord w = .operation i → encodeWord i = w)

/-- Does the word spell an operation of this unit? -/
def Sys2Proof.spells (u : PortGroup) (w : OpWord) : Bool :=
  match decodeWord w with
  | .operation i => i.unit == u
  | .invalidOperationWord => false

/-- How many of the 8192 operation words have a property, counted as 64 rows of 128. -/
def Sys2Proof.countWords (p : OpWord → Bool) : Nat :=
  ((List.range 64).map (fun h => (List.range 128).countP (fun l => p (BitVec.ofNat 13 (128 * h + l))))).sum

/-- 30_encoding.md R72, its counts: 2048, 256, 256 and 8 words, 2568 valid and 5624 invalid. -/
def Obligations.OperationWordCounts : Prop :=
  countWords (spells .rem) = 2048 ∧ countWords (spells .enc) = 256 ∧ countWords (spells .dec) = 256 ∧
  countWords (spells .syn) = 8 ∧ countWords validWord = 2568 ∧
  countWords (fun w => decodeWord w == .invalidOperationWord) = 5624

/-- 30_encoding.md R78: the worked words of all four units and the nearest invalid words. -/
def Obligations.WorkedWordsDecode : Prop :=
  encodeWord (.rem 0x53 0xB) = 0x053B ∧ decodeWord 0x053B = .operation (.rem 0x53 0xB) ∧
  encodeWord (.enc 0x0A) = 0x080A ∧ decodeWord 0x080A = .operation (.enc 0x0A) ∧
  encodeWord (.dec 0x52) = 0x1052 ∧ decodeWord 0x1052 = .operation (.dec 0x52) ∧
  encodeWord (.syn 3) = 0x1803 ∧ decodeWord 0x1803 = .operation (.syn 3) ∧
  decodeWord 0x090A = .invalidOperationWord ∧ decodeWord 0x1152 = .invalidOperationWord ∧
  decodeWord 0x180B = .invalidOperationWord

/-- A step performs the operation its first word spells (30_encoding.md R72), with that word taken off the sequence,
which is the model's (log entry 4, DESIGN CHOICE). -/
def Obligations.StepPerformsTheDecodedOperation : Prop :=
  ∀ (s : State) (w : OpWord) (rest : List OpWord) (i : Instr), s.pending = w :: rest →
    decodeWord w = .operation i → step s = exec i { s with pending := rest }

/-- 30_encoding.md R70: the unit number, the operand fields, the match and mask of each row, and that at most one row
matches. R70 speaks of no step and no sequence: that a step takes the word off the host's sequence before it performs
the operation is the model's (log entry 4, DESIGN CHOICE). -/
def Obligations.StepPerformsTheRowTheWordSelects : Prop :=
  ∀ (s : State) (w : OpWord) (rest : List OpWord), s.pending = w :: rest →
    (w &&& 0x1800 = 0x0000 →
      step s = exec (.rem (w.extractLsb' 4 7) (w.extractLsb' 0 4)) { s with pending := rest }) ∧
    (w &&& 0x1F00 = 0x0800 → step s = exec (.enc (w.extractLsb' 0 8)) { s with pending := rest }) ∧
    (w &&& 0x1F00 = 0x1000 → step s = exec (.dec (w.extractLsb' 0 8)) { s with pending := rest }) ∧
    (w &&& 0x1FF8 = 0x1800 → step s = exec (.syn (w.extractLsb' 0 3)) { s with pending := rest }) ∧
    (opcodeTable.filter (·.selects w)).length ≤ 1

/-- 30_encoding.md R73: exactly the words of no row are refused, by their name and with no result. -/
def Obligations.InvalidWordIsRefusedByName : Prop :=
  ∀ (s : State) (w : OpWord) (rest : List OpWord), s.pending = w :: rest →
    (step s = .refused .invalidOperationWord ↔ opcodeTable.filter (·.selects w) = []) ∧
    (step s = .refused .invalidOperationWord ↔
      ((w.extractLsb' 11 2 = 1 ∨ w.extractLsb' 11 2 = 2) ∧ w.extractLsb' 8 3 ≠ 0) ∨
      (w.extractLsb' 11 2 = 3 ∧ w.extractLsb' 3 8 ≠ 0))

/-- 60_exceptions.md R176: every operation yields its result and a next state, no step faults, and the one refusal
arises at the word decoder. -/
def Obligations.OnlyAnInvalidWordStopsAStep : Prop :=
  (∀ (i : Instr) (s : State), ∃ t, exec i s = .next t ∧ t.observed = s.observed ++ [⟨i, resultByte i⟩]) ∧
  (∀ (s : State) (f : Fault), step s ≠ .fault f) ∧
  (∀ (s : State) (r : Refusal), step s = .refused r →
    r = .invalidOperationWord ∧ ∃ w rest, s.pending = w :: rest ∧ validWord w = false)

/-- From a safe state every run, however long, is never refused and stays safe (30_encoding.md R73, 60_exceptions.md
R176). A run longer than the pending sequence goes on after its last word by the model's choice alone: with nothing
pending a step answers the same state (log entry 3, DESIGN CHOICE). -/
def Obligations.SafeRunsNeverStop : Prop :=
  ∀ (n : Nat) (s : State), s.safe = true → ∃ t : State, Host.Core.run core n s = .next t ∧ t.safe = true

/-- The model's own interface (log entries 4 and 5): a table word placed by the host is the one the next step
performs or refuses, and the state is otherwise as it was. -/
def Obligations.PlacedTableWordIsPerformedNext : Prop :=
  ∀ (s : State) (nbits w : Nat),
    (∀ i, decodeTableWord nbits w = some i → step (s.withFetchWord nbits w) = exec i s) ∧
    (decodeTableWord nbits w = none → step (s.withFetchWord nbits w) = .refused .invalidOperationWord)

/-- The model's choice (log entry 3, DESIGN CHOICE): with no operation left a step changes nothing. -/
def Obligations.EndedSequenceStepsIdly : Prop :=
  ∀ s : State, s.pending = [] → step s = .next s

/-! ### REM -/

/-- The long division of 40_remainder.md R92 written out from the rule: `d4`. -/
def Sys2Proof.longDivision (d : Codeword) (g : Generator) : Codeword :=
  let g7 : Codeword := g.setWidth 7
  let d1 := if d.getLsbD 6 = true then d ^^^ (g7 <<< 3) else d
  let d2 := if d1.getLsbD 5 = true then d1 ^^^ (g7 <<< 2) else d1
  let d3 := if d2.getLsbD 4 = true then d2 ^^^ (g7 <<< 1) else d2
  if d3.getLsbD 3 = true then d3 ^^^ g7 else d3

/-- 40_remainder.md R92: `REM` on every dividend and every generator completes with the low 3 bits of the long
division; nothing else changes. -/
def Obligations.RemDividesInFourChainedSteps : Prop :=
  ∀ (d : Codeword) (g : Generator) (s : State),
    exec (.rem d g) s = .next { s with
      remDividend := d, remGenerator := g
      observed := s.observed ++ [⟨.rem d g, ((longDivision d g).extractLsb' 0 3).setWidth 8⟩] }

/-- 40_remainder.md R94: with a leading generator bit the stages clear bits 6 to 3 and `REM` gives THE polynomial
remainder: the value of degree below 3 congruent to the dividend, which is unique. -/
def Obligations.RemIsThePolynomialRemainder : Prop :=
  ∀ (d : Codeword) (g : Generator) (s : State), g.getLsbD 3 = true →
    (remD1 d g).extractLsb' 6 1 = 0 ∧ (remD2 d g).extractLsb' 5 2 = 0 ∧ (remD3 d g).extractLsb' 4 3 = 0 ∧
    (remD4 d g).extractLsb' 3 4 = 0 ∧
    polynomialOf g ∣ polynomialOf (d ^^^ remD4 d g) ∧
    ∃ r : Syndrome,
      exec (.rem d g) s = .next { s with
        remDividend := d, remGenerator := g, observed := s.observed ++ [⟨.rem d g, r.setWidth 8⟩] } ∧
      polynomialOf r = polynomialOf d %ₘ polynomialOf g ∧
      ∀ r' : Syndrome, polynomialOf g ∣ polynomialOf d - polynomialOf r' → r' = r

/-- 40_remainder.md R95: the closed form at the port for `g = GEN`, the table of the seven powers of x, and the result
as the XOR of the table's entries at the set bits. -/
def Obligations.RemClosedFormForGen : Prop :=
  (∀ s : State, s.remGenerator = 0xB →
    let d := s.remDividend
    s.remResult.getLsbD 0 = (d.getLsbD 0 ^^ d.getLsbD 3 ^^ d.getLsbD 5 ^^ d.getLsbD 6) ∧
    s.remResult.getLsbD 1 = (d.getLsbD 1 ^^ d.getLsbD 3 ^^ d.getLsbD 4 ^^ d.getLsbD 5) ∧
    s.remResult.getLsbD 2 = (d.getLsbD 2 ^^ d.getLsbD 4 ^^ d.getLsbD 5 ^^ d.getLsbD 6) ∧
    s.remResult = ((List.range 7).filter (fun p => d.getLsbD p)).foldl (fun r p => r ^^^ rem (oneBit p) 0xB) 0) ∧
  (List.range 7).map (fun p => rem (oneBit p) 0xB) = [1, 2, 4, 3, 6, 7, 5]

/-- 40_remainder.md R96: linearity, for every generator, as the port shows it. -/
def Obligations.RemIsLinear : Prop :=
  ∀ (s : State) (a b : Codeword) (g : Generator),
    (s.driveRem (a ^^^ b) g).remResult = (s.driveRem a g).remResult ^^^ (s.driveRem b g).remResult ∧
    (s.driveRem 0 g).remResult = 0

/-- 40_remainder.md R97: a generator with bit 3 clear is divided by as written, without being a remainder; generator 0
gives the dividend's low bits; nothing is raised. -/
def Obligations.RemWithoutLeadingBitIsDefined : Prop :=
  (∀ (d : Codeword) (g : Generator) (s : State), g.getLsbD 3 = false →
    exec (.rem d g) s = .next { s with
      remDividend := d, remGenerator := g
      observed := s.observed ++ [⟨.rem d g, ((longDivision d g).extractLsb' 0 3).setWidth 8⟩] } ∧
    remD4 d g = longDivision d g ∧
    (List.range 128).countP (fun n => (remD4 (BitVec.ofNat 7 n) g).extractLsb' 3 4 != 0) = 120) ∧
  (∀ (d : Codeword) (s : State),
    exec (.rem d 0) s = .next { s with
      remDividend := d, remGenerator := 0
      observed := s.observed ++ [⟨.rem d 0, (d.extractLsb' 0 3).setWidth 8⟩] }) ∧
  remD1 0b1000000 0b0011 = 0b1011000 ∧ remD2 0b1000000 0b0011 = 0b1011000 ∧
  remD3 0b1000000 0b0011 = 0b1011110 ∧ remD4 0b1000000 0b0011 = 0b1011101 ∧ rem 0b1000000 0b0011 = 0b101

/-- 40_remainder.md R98: the corner cases of the divider. -/
def Obligations.RemCornerCases : Prop :=
  (∀ g : Generator, rem 0 g = 0) ∧
  (∀ (d : Codeword) (g : Generator), d.extractLsb' 3 4 = 0 → rem d g = d.extractLsb' 0 3) ∧
  (∀ g : Generator, g.getLsbD 3 = true → rem (g ++ 0#3) g = 0 ∧ rem (g.setWidth 7) g = 0) ∧
  (remD1 0b1111111 gen = 0b0100111 ∧ remD2 0b1111111 gen = 0b0001011 ∧ remD3 0b1111111 gen = 0b0001011 ∧
    remD4 0b1111111 gen = 0 ∧ rem 0b1111111 gen = 0) ∧
  (remD1 0b1101100 gen = 0b0110100 ∧ remD2 0b1101100 gen = 0b0011000 ∧ remD3 0b1101100 gen = 0b0001110 ∧
    remD4 0b1101100 gen = 0b0000101 ∧ rem 0b1101100 gen = 5) ∧
  (remD1 0b1111111 0b1111 = 0b0000111 ∧ remD4 0b1111111 0b1111 = 0b0000111 ∧ rem 0b1111111 0b1111 = 7) ∧
  (remD1 0b1111111 0b1000 = 0b0111111 ∧ remD2 0b1111111 0b1000 = 0b0011111 ∧ remD3 0b1111111 0b1000 = 0b0001111 ∧
    remD4 0b1111111 0b1000 = 0b0000111 ∧ rem 0b1111111 0b1000 = 7) ∧
  (remD1 0b1111111 0b1001 = 0b0110111 ∧ remD2 0b1111111 0b1001 = 0b0010011 ∧ remD3 0b1111111 0b1001 = 0b0000001 ∧
    remD4 0b1111111 0b1001 = 0b0000001 ∧ rem 0b1111111 0b1001 = 1) ∧
  (remD1 0b1011010 0b1101 = 0b0110010 ∧ remD2 0b1011010 0b1101 = 0b0000110 ∧
    remD4 0b1011010 0b1101 = 0b0000110 ∧ rem 0b1011010 0b1101 = 6) ∧
  rem 0b1111111 0 = 7 ∧
  (remD1 0b1111111 0b0001 = 0b1110111 ∧ remD2 0b1111111 0b0001 = 0b1110011 ∧ remD3 0b1111111 0b0001 = 0b1110001 ∧
    remD4 0b1111111 0b0001 = 0b1110001 ∧ rem 0b1111111 0b0001 = 1)

/-! ### ENC -/

/-- 41_encoder.md R112: `ENC` on every byte completes with the shifted message or-ed with its remainder; nothing else
changes. -/
def Obligations.EncAppendsTheRemainder : Prop :=
  ∀ (b : Byte) (s : State),
    let shifted : Codeword := b.extractLsb' 0 4 ++ 0#3
    let r : Syndrome := (longDivision shifted 0b1011).extractLsb' 0 3
    exec (.enc b) s = .next { s with
      encMessage := b
      observed := s.observed ++ [⟨.enc b, (shifted ||| r.setWidth 7).setWidth 8⟩] }

/-- 41_encoder.md R117: the complete function, every row with its shifted message and its check value. -/
def Obligations.EncCompletesWithTheTabulatedCodeword : Prop :=
  ∀ (b : Byte) (s : State),
    let m := (b.extractLsb' 0 4).toNat
    exec (.enc b) s = .next { s with
      encMessage := b
      observed := s.observed ++ [⟨.enc b, BitVec.ofNat 8
        ([0, 11, 22, 29, 39, 44, 49, 58, 69, 78, 83, 88, 98, 105, 116, 127].getD m 255)⟩] } ∧
    (encShifted b).toNat = 8 * m ∧
    (encR b).toNat = [0, 3, 6, 5, 7, 4, 1, 2, 5, 6, 3, 0, 2, 1, 4, 7].getD m 255 ∧
    (encodeWord (.enc (BitVec.ofNat 8 m))).toNat = 0x0800 + m

/-- 41_encoder.md R113: every byte is accepted and bits 7:4 have no effect on the result. -/
def Obligations.EncIgnoresHighBits : Prop :=
  ∀ (b : Byte) (s : State), ∃ y : Byte,
    exec (.enc b) s = .next { s with encMessage := b, observed := s.observed ++ [⟨.enc b, y⟩] } ∧
    exec (.enc ((b.extractLsb' 0 4).setWidth 8)) s = .next { s with
      encMessage := (b.extractLsb' 0 4).setWidth 8
      observed := s.observed ++ [⟨.enc ((b.extractLsb' 0 4).setWidth 8), y⟩] }

/-- 41_encoder.md R114: the code is systematic, as the port shows it. -/
def Obligations.EncIsSystematic : Prop :=
  ∀ s : State,
    s.encCodeword.extractLsb' 3 4 = s.encMessage.extractLsb' 0 4 ∧
    s.encCodeword.extractLsb' 0 3 = encR s.encMessage ∧
    (encShifted s.encMessage).extractLsb' 0 3 = 0 ∧
    encCw s.encMessage = encShifted s.encMessage ^^^ (encR s.encMessage).setWidth 7 ∧
    encCw s.encMessage = encMasked s.encMessage ++ encR s.encMessage ∧
    s.encCodeword.getLsbD 7 = false

/-- 41_encoder.md R115: a `REM` by `GEN` of any codeword the encoder makes completes with 0; conversely only the 16
valid codewords have remainder 0. -/
def Obligations.CodewordsHaveRemainderZero : Prop :=
  (∀ (b : Byte) (s : State),
    exec (.rem ((enc b).extractLsb' 0 7) 0xB) s = .next { s with
      remDividend := (enc b).extractLsb' 0 7, remGenerator := 0xB
      observed := s.observed ++ [⟨.rem ((enc b).extractLsb' 0 7) 0xB, 0⟩] }) ∧
  (∀ c : Codeword, rem c 0xB = 0 ↔ validCodeword c = true) ∧
  (List.range 128).countP (fun n => validCodeword (BitVec.ofNat 7 n)) = 16

/-- 41_encoder.md R116: the closed form of the check bits, as the port shows it. -/
def Obligations.EncCheckBitsClosedForm : Prop :=
  ∀ s : State,
    let m := s.encMessage
    s.encCodeword.getLsbD 0 = (m.getLsbD 0 ^^ m.getLsbD 2 ^^ m.getLsbD 3) ∧
    s.encCodeword.getLsbD 1 = (m.getLsbD 0 ^^ m.getLsbD 1 ^^ m.getLsbD 2) ∧
    s.encCodeword.getLsbD 2 = (m.getLsbD 1 ^^ m.getLsbD 2 ^^ m.getLsbD 3)

/-- 41_encoder.md R118: linearity, the weights of the 16 codewords, minimum distance 3, and that the message bits tell
valid codewords apart. -/
def Obligations.CodeIsLinearWithDistanceThree : Prop :=
  (∀ (s : State) (a b : Byte),
    (s.driveEnc (a ^^^ b)).encCodeword = (s.driveEnc a).encCodeword ^^^ (s.driveEnc b).encCodeword ∧
    (s.driveEnc 0).encCodeword = 0) ∧
  (let weights := (List.range 16).map (fun m => weight (encCw (BitVec.ofNat 8 m)))
   weights.count 0 = 1 ∧ weights.count 3 = 7 ∧ weights.count 4 = 7 ∧ weights.count 7 = 1) ∧
  (∀ c c' : Codeword, validCodeword c = true → validCodeword c' = true → c ≠ c' →
    3 ≤ weight (c ^^^ c') ∧ messageBits c ≠ messageBits c') ∧
  (∀ c : Codeword, validCodeword c = true → messageBits c = 0 → c = 0)

/-! ### DEC -/

/-- 42_decoder.md R132: `DEC` on every byte completes with the message of the corrected word; nothing else changes;
the conditional and the unconditional lookup agree. -/
def Obligations.DecCorrectsByTheSyndromeTable : Prop :=
  ∀ (b : Byte) (s : State),
    let masked : Codeword := b.extractLsb' 0 7
    let syndrome : Syndrome := (longDivision masked 0b1011).extractLsb' 0 3
    let mask : Codeword := if syndrome = 0 then 0 else synrom syndrome
    let corrected := masked ^^^ mask
    exec (.dec b) s = .next { s with
      decCodeword := b
      observed := s.observed ++ [⟨.dec b, (corrected.extractLsb' 3 4).setWidth 8⟩] } ∧
    mask = synrom syndrome

/-- 42_decoder.md R133: every byte is accepted, bit 7 has no effect on the result, and the result's bits 7:4 are
clear. -/
def Obligations.DecIgnoresBitSeven : Prop :=
  ∀ (b : Byte) (s : State), ∃ y : Byte,
    exec (.dec b) s = .next { s with decCodeword := b, observed := s.observed ++ [⟨.dec b, y⟩] } ∧
    exec (.dec ((b.extractLsb' 0 7).setWidth 8)) s = .next { s with
      decCodeword := (b.extractLsb' 0 7).setWidth 8
      observed := s.observed ++ [⟨.dec ((b.extractLsb' 0 7).setWidth 8), y⟩] } ∧
    y.extractLsb' 4 4 = 0

/-- 42_decoder.md R134: every encoded message decodes to itself with syndrome 0, and so does every valid codeword. -/
def Obligations.UncorruptedCodewordsDecode : Prop :=
  (∀ (m : Message) (s : State),
    exec (.dec (enc (m.setWidth 8))) s = .next { s with
      decCodeword := enc (m.setWidth 8)
      observed := s.observed ++ [⟨.dec (enc (m.setWidth 8)), m.setWidth 8⟩] } ∧
    decSyndrome (enc (m.setWidth 8)) = 0) ∧
  (∀ s : State, validCodeword (s.decCodeword.extractLsb' 0 7) = true →
    s.decMessage = (s.decCodeword.extractLsb' 3 4).setWidth 8 ∧ decSyndrome s.decCodeword = 0)

/-- 42_decoder.md R135: every single flip of every codeword, all seven positions, is corrected, and why. -/
def Obligations.EverySingleFlipIsCorrected : Prop :=
  (∀ (m : Message) (p : Nat) (s : State), p < 7 →
    let c := enc (m.setWidth 8) ^^^ (1#8 <<< p)
    exec (.dec c) s = .next { s with
      decCodeword := c, observed := s.observed ++ [⟨.dec c, m.setWidth 8⟩] } ∧
    decSyndrome c = rem (oneBit p) gen ∧ rem (oneBit p) gen ≠ 0 ∧ synrom (rem (oneBit p) gen) = oneBit p ∧
    decCorrected c = (enc (m.setWidth 8)).extractLsb' 0 7) ∧
  (∀ p q : Nat, p < 7 → q < 7 → rem (oneBit p) gen = rem (oneBit q) gen → p = q)

/-- The headline of 42_decoder.md R134 and R135 as the machine runs it: a host encodes a byte, at most one codeword
bit is flipped on the way, and decoding gives the message back. The pending sequence is the model's (log entry 4). -/
def Obligations.EncodeFlipDecodeRecoversTheMessage : Prop :=
  ∀ (s : State) (b : Byte) (e : Codeword) (rest : List OpWord), weight e ≤ 1 →
    s.pending = encodeWord (.enc b) :: encodeWord (.dec (enc b ^^^ e.setWidth 8)) :: rest →
    ∃ t : State, Host.Core.run core 2 s = .next t ∧ t.pending = rest ∧
      t.observed = s.observed ++
        [⟨.enc b, enc b⟩, ⟨.dec (enc b ^^^ e.setWidth 8), (b.extractLsb' 0 4).setWidth 8⟩]

/-- 42_decoder.md R136: every received word is within one bit of exactly one valid codeword; the decoder finds it and
gives its message; each syndrome occurs for 16 of the 128 words. -/
def Obligations.DecFindsTheUniqueNearestCodeword : Prop :=
  (∀ s : State,
    let c : Codeword := s.decCodeword.extractLsb' 0 7
    validCodeword (decCorrected s.decCodeword) = true ∧ weight (c ^^^ decCorrected s.decCodeword) ≤ 1 ∧
    (∀ c' : Codeword, validCodeword c' = true → weight (c ^^^ c') ≤ 1 → c' = decCorrected s.decCodeword) ∧
    s.decMessage = (messageBits (decCorrected s.decCodeword)).setWidth 8) ∧
  (∀ k : Syndrome, (List.range 128).countP (fun n => rem (BitVec.ofNat 7 n) gen == k) = 16)

/-- 42_decoder.md R137: two or more flips complete with a defined, always wrong message and no error; two flips never
have syndrome 0; three flips have it exactly when the pattern is itself one of the seven valid codewords of weight 3
(112 of the 560 cases). -/
def Obligations.TwoOrMoreFlipsAlwaysMiscorrect : Prop :=
  (∀ (m : Message) (e : Codeword) (s : State), 2 ≤ weight e →
    let c := enc (m.setWidth 8) ^^^ e.setWidth 8
    ∃ y : Byte,
      exec (.dec c) s = .next { s with decCodeword := c, observed := s.observed ++ [⟨.dec c, y⟩] } ∧
      y ≠ m.setWidth 8 ∧
      (weight e = 2 → decSyndrome c ≠ 0 ∧ weight (decMask c) = 1) ∧
      (weight e = 3 → (decSyndrome c = 0 ↔ validCodeword e = true)) ∧
      (decSyndrome c = 0 → decMask c = 0)) ∧
  (let patterns := ((List.range 128).map (BitVec.ofNat 7)).filter (fun e => weight e == 3)
   let cases := (List.range 16).flatMap (fun m => patterns.map (fun e => enc (BitVec.ofNat 8 m) ^^^ e.setWidth 8))
   cases.length = 560 ∧ cases.countP (fun c => decSyndrome c == 0) = 112 ∧
   patterns.countP validCodeword = 7)

/-- 42_decoder.md R138: which corrections change the output, in closed form, as the port shows it. -/
def Obligations.DecMessageClosedForm : Prop :=
  ∀ s : State,
    let b := s.decCodeword
    let k := decSyndrome b
    s.decMessage.getLsbD 0 = (b.getLsbD 3 ^^ k == 3) ∧ s.decMessage.getLsbD 1 = (b.getLsbD 4 ^^ k == 6) ∧
    s.decMessage.getLsbD 2 = (b.getLsbD 5 ^^ k == 7) ∧ s.decMessage.getLsbD 3 = (b.getLsbD 6 ^^ k == 5) ∧
    (k = 1 → decMask b = 0b0000001) ∧ (k = 2 → decMask b = 0b0000010) ∧ (k = 4 → decMask b = 0b0000100) ∧
    (k = 3 → decMask b = 0b0001000) ∧ (k = 6 → decMask b = 0b0010000) ∧ (k = 7 → decMask b = 0b0100000) ∧
    (k = 5 → decMask b = 0b1000000) ∧
    (k = 1 ∨ k = 2 ∨ k = 4 → s.decMessage.extractLsb' 0 4 = b.extractLsb' 3 4)

/-! ### SYN -/

/-- 43_syndrome_table.md R152: `SYN` on every index completes with the entry of the table; nothing else changes. -/
def Obligations.SynReadsTheTable : Prop :=
  ∀ (k : Syndrome) (s : State),
    exec (.syn k) s = .next { s with
      synSyndrome := k
      observed := s.observed ++ [⟨.syn k, BitVec.ofNat 8 ([0, 1, 2, 8, 4, 64, 16, 32].getD k.toNat 255)⟩] }

/-- 43_syndrome_table.md R153: the table inverts the syndrome of a single-bit error, as the two units show it one after
the other, and the document's syndrome completeness for every valid codeword. -/
def Obligations.TableInvertsSingleErrorSyndromes : Prop :=
  (∀ (s : State) (p : Nat), p < 7 → ∃ k : Syndrome,
    exec (.rem (oneBit p) 0xB) s = .next { s with
      remDividend := oneBit p, remGenerator := 0xB
      observed := s.observed ++ [⟨.rem (oneBit p) 0xB, k.setWidth 8⟩] } ∧
    exec (.syn k) s = .next { s with
      synSyndrome := k, observed := s.observed ++ [⟨.syn k, (oneBit p).setWidth 8⟩] }) ∧
  (∀ k : Syndrome, rem (synrom k) gen = k) ∧
  (List.range 7).map (fun p => rem (oneBit p) gen) = [1, 2, 4, 3, 6, 7, 5] ∧
  (∀ c : Codeword, validCodeword c = true →
    (∀ k : Syndrome, k ≠ 0 → (List.range 7).countP (fun p => rem (c ^^^ oneBit p) gen == k) = 1) ∧
    (∀ p : Nat, p < 7 → (c ^^^ oneBit p) ^^^ synrom (rem (c ^^^ oneBit p) gen) = c))

/-- 43_syndrome_table.md R155: the shape of the mask, as the port shows it: one-hot for a nonzero index, different for
different indices, every one-hot mask reached, and which masks touch the message. -/
def Obligations.MaskIsOneHot : Prop :=
  (∀ s : State,
    (s.synSyndrome ≠ 0 → weight s.synMask = 1) ∧ (s.synSyndrome = 0 → s.synMask = 0) ∧
    (s.synSyndrome = 3 ∨ s.synSyndrome = 6 ∨ s.synSyndrome = 7 ∨ s.synSyndrome = 5 →
      checkBits s.synMask = 0 ∧ messageBits s.synMask ≠ 0) ∧
    (s.synSyndrome = 1 ∨ s.synSyndrome = 2 ∨ s.synSyndrome = 4 →
      messageBits s.synMask = 0 ∧ checkBits s.synMask ≠ 0)) ∧
  (∀ s s' : State, s.synMask = s'.synMask → s.synSyndrome = s'.synSyndrome) ∧
  (∀ c : Codeword, weight c = 1 → ∃ k : Syndrome, k ≠ 0 ∧ syn k = c)

/-- 43_syndrome_table.md R156: all eight operations by their words, and the worked example. That a step takes the word
off the host's sequence is the model's (log entry 4, DESIGN CHOICE). -/
def Obligations.AllEightSynWords : Prop :=
  (∀ (s : State) (rest : List OpWord) (row : OpWord × Syndrome × Byte),
    row ∈ [((0x1800 : OpWord), (0 : Syndrome), (0x00 : Byte)), (0x1801, 1, 0x01), (0x1802, 2, 0x02), (0x1803, 3, 0x08),
      (0x1804, 4, 0x04), (0x1805, 5, 0x40), (0x1806, 6, 0x10), (0x1807, 7, 0x20)] →
    s.pending = row.1 :: rest →
    step s = .next { s with
      synSyndrome := row.2.1, pending := rest, observed := s.observed ++ [⟨.syn row.2.1, row.2.2⟩] }) ∧
  rem 82 gen = 1 ∧ syn 1 = 0x01 ∧ (82 : Codeword) ^^^ 0x01 = 83

/-- The decoder a host builds from `REM` and `SYN` (95_test_vectors.md section 4, P2) agrees with `DEC` on every byte:
the three operations run in sequence, each completes, and the unit's message is bits 6:3 of the word the host
repaired with the mask it was given. Taking the words off the sequence is the model's (log entry 4, DESIGN CHOICE). -/
def Obligations.HostBuiltDecoderAgreesWithDec : Prop :=
  ∀ (s : State) (b : Byte) (rest : List OpWord), ∃ (k : Syndrome) (mask : Codeword) (t : State),
    Host.Core.run core 3 { s with
      pending := encodeWord (synd (b.extractLsb' 0 7)) :: encodeWord (.syn k) :: encodeWord (.dec b) :: rest } =
        .next t ∧
      t.pending = rest ∧
      t.observed = s.observed ++
        [⟨synd (b.extractLsb' 0 7), k.setWidth 8⟩, ⟨.syn k, mask.setWidth 8⟩,
         ⟨.dec b, ((b.extractLsb' 0 7 ^^^ mask).extractLsb' 3 4).setWidth 8⟩]

/-! ### The whole machine -/

/-- 10_state.md R31: which output bits are fixed, and that no other is (`syn_mask` among them, each of whose bits
takes both values by the table of 43_syndrome_table.md R151). -/
def Obligations.FixedOutputBits : Prop :=
  (∀ s : State,
    s.encCodeword.getLsbD 7 = false ∧ s.decMessage.extractLsb' 4 4 = 0 ∧
    (s.synSyndrome ≠ 0 → weight s.synMask = 1) ∧ (s.synSyndrome = 0 → s.synMask = 0)) ∧
  (∀ (s : State) (v : Bool) (i : Nat),
    (i < 3 → ∃ d g, (s.driveRem d g).remResult.getLsbD i = v) ∧
    (i < 7 → ∃ b, (s.driveEnc b).encCodeword.getLsbD i = v) ∧
    (i < 4 → ∃ b, (s.driveDec b).decMessage.getLsbD i = v) ∧
    (i < 7 → ∃ k, (s.driveSyn k).synMask.getLsbD i = v))

/-- 30_encoding.md R71: the result byte is the sampled output port, zero-extended, and `0x080A -> 0x53`. -/
def Obligations.ResultByteIsTheSampledPort : Prop :=
  (∀ (d : Codeword) (g : Generator) (s : State), ∃ t, exec (.rem d g) s = .next t ∧
    t.observed = s.observed ++ [⟨.rem d g, t.remResult.setWidth 8⟩] ∧ (t.remResult.setWidth 8).extractLsb' 3 5 = 0) ∧
  (∀ (b : Byte) (s : State), ∃ t, exec (.enc b) s = .next t ∧ t.observed = s.observed ++ [⟨.enc b, t.encCodeword⟩]) ∧
  (∀ (b : Byte) (s : State), ∃ t, exec (.dec b) s = .next t ∧ t.observed = s.observed ++ [⟨.dec b, t.decMessage⟩]) ∧
  (∀ (k : Syndrome) (s : State), ∃ t, exec (.syn k) s = .next t ∧
    t.observed = s.observed ++ [⟨.syn k, t.synMask.setWidth 8⟩] ∧ (t.synMask.setWidth 8).getLsbD 7 = false) ∧
  (∀ (s : State) (rest : List OpWord), s.pending = 0x080A :: rest → ∃ t, step s = .next t ∧
    t.observed = s.observed ++ [⟨.enc 0x0A, 0x53⟩])

/-- 10_state.md R28: each output is a function of its own group's inputs, so no operation changes the output of another
group. -/
def Obligations.PortGroupsAreIndependent : Prop :=
  (∀ s s' : State,
    (s.remDividend = s'.remDividend → s.remGenerator = s'.remGenerator → s.remResult = s'.remResult) ∧
    (s.encMessage = s'.encMessage → s.encCodeword = s'.encCodeword) ∧
    (s.decCodeword = s'.decCodeword → s.decMessage = s'.decMessage) ∧
    (s.synSyndrome = s'.synSyndrome → s.synMask = s'.synMask)) ∧
  (∀ (i : Instr) (s : State), ∃ t, exec i s = .next t ∧
    (i.unit ≠ .rem → t.remResult = s.remResult) ∧ (i.unit ≠ .enc → t.encCodeword = s.encCodeword) ∧
    (i.unit ≠ .dec → t.decMessage = s.decMessage) ∧ (i.unit ≠ .syn → t.synMask = s.synMask))

/-- 20_memory.md R45: the result of an operation depends on its operands only, whatever was done before, the first
operation after reset like any later one; and repeating an operation gives the same result and leaves every wire. -/
def Obligations.OperationsArePureAndIdempotent : Prop :=
  ∀ i : Instr, ∃ y : Byte, ∀ s : State, ∃ t, exec i s = .next t ∧
    t.observed = s.observed ++ [⟨i, y⟩] ∧ t.pending = s.pending ∧
    exec i t = .next { t with observed := t.observed ++ [⟨i, y⟩] }

/-- 70_reset_and_hazards.md R197: the outcome of a sequence is the list of the outcomes of its operations taken
separately, in order, from every state. Taking the words off the sequence is the model's (log entry 4). -/
def Obligations.SequenceOutcomeIsTheListOfOutcomes : Prop :=
  ∀ (ops : List Instr) (rest : List OpWord) (s : State), s.pending = ops.map encodeWord ++ rest →
    ∃ (t : State) (outcomes : List Observation),
      Host.Core.run core ops.length s = .next t ∧ t.pending = rest ∧ t.observed = s.observed ++ outcomes ∧
      outcomes.map Observation.operation = ops ∧
      ∀ o ∈ outcomes, ∀ u : State, ∃ v, exec o.operation u = .next v ∧ v.observed = u.observed ++ [o]

/-- 20_memory.md R46: no order of operations is observable: the same operations in any other order, or interleaved in
any other way, give each operation the same result. -/
def Obligations.OrderOfOperationsIsUnobservable : Prop :=
  ∀ (ops ops' : List Instr) (s : State), ops.Perm ops' →
    ∃ t t' outcomes outcomes',
      Host.Core.run core ops.length { s with pending := ops.map encodeWord } = .next t ∧
      Host.Core.run core ops'.length { s with pending := ops'.map encodeWord } = .next t' ∧
      t.observed = s.observed ++ outcomes ∧ t'.observed = s.observed ++ outcomes' ∧ outcomes.Perm outcomes' ∧
      ∀ o ∈ outcomes, ∀ o' ∈ outcomes', o.operation = o'.operation → o.result = o'.result

/-- A step adds at most one observation, after the earlier ones, and changes no earlier one (the list of results in
order, 70_reset_and_hazards.md R197). That it takes one word off the front of the sequence, and that with nothing
pending it answers the same state, are the model's (log entries 4 and 3, DESIGN CHOICE). -/
def Obligations.StepTakesOneWordAndAddsOneObservation : Prop :=
  ∀ s t : State, step s = .next t →
    (s.pending = [] ∧ t = s) ∨
    ∃ w o, s.pending = w :: t.pending ∧ t.observed = s.observed ++ [o] ∧ encodeWord o.operation = w

/-- Every observation a step adds keeps what the spec promises of it (40_remainder.md R94, 41_encoder.md R114 and R115,
42_decoder.md R136, 43_syndrome_table.md R153, 10_state.md R31): an invariant of every step from every state that has
it. -/
def Obligations.StepKeepsObservationsLawful : Prop :=
  ∀ s t : State, s.lawful = true → step s = .next t → t.lawful = true

/-- Before any operation nothing is pending and nothing observed, so the invariants hold there; and every output
already carries its unit's value (10_state.md R30), whatever the input wires show. The empty sequence and list are the
model's (log entries 1, 4 and 6). -/
def Obligations.ResetHasNothingPendingOrObserved : Prop :=
  State.reset.pending = [] ∧ State.reset.observed = [] ∧ State.reset.lawful = true ∧ State.reset.safe = true ∧
  ∀ s : State, s.remResult = rem s.remDividend s.remGenerator ∧ s.encCodeword = enc s.encMessage ∧
    s.decMessage = dec s.decCodeword ∧ s.synMask = syn s.synSyndrome

/-! ### The port protocol in time -/

/-- 70_reset_and_hazards.md R194: drive a group's inputs, hold them for at least `T_SETTLE`, sample, and the result is
the unit's value, whatever is driven, held and sampled at the OTHER groups and sampled at this one meanwhile. Time is
the model's own layer (log entries 8, 11 and 12, DESIGN CHOICE). -/
def Obligations.SettledSampleGivesTheUnitsValue : Prop :=
  ∀ (t : Timed) (i : Instr) (actions : List HostAction),
    (∀ a ∈ actions, a.drives i.unit = false) → Config.tSettle ≤ waited actions →
    ∃ earlier : List Observation,
      (t.run (.drive i :: actions ++ [.sample i.unit])).state.observed = earlier ++ [⟨i, resultByte i⟩]

/-- The untimed meaning is the timed protocol: `exec` gives the state that driving, holding for `T_SETTLE` or longer,
and sampling gives (70_reset_and_hazards.md R194, R197). -/
def Obligations.ExecIsDriveHoldSample : Prop :=
  ∀ (t : Timed) (i : Instr) (n : Nat), Config.tSettle ≤ n →
    exec i t.state = .next (t.run [.drive i, .wait n, .sample i.unit]).state

/-- 70_reset_and_hazards.md R191: a group whose inputs are stable shows its unit's value from `T_SETTLE` on, the first
time as any later time. Stable: nothing puts OTHER operands on the group. Driving the same operands again, and
whatever is done at the other groups, does not matter; holding from before counts. Time is the model's own layer (log
entries 8, 11 and 12, DESIGN CHOICE). -/
def Obligations.StableInputsCarryTheUnitsValue : Prop :=
  ∀ (t : Timed) (u : PortGroup) (actions : List HostAction),
    (∀ a ∈ actions, a.disturbs (t.state.present u) = false) → Config.tSettle ≤ t.held u + waited actions →
    ((t.run actions).sample u).state =
      (t.run actions).state.record (t.state.present u) (resultByte (t.state.present u)) ∧
    ((t.run actions).sample u).early = (t.run actions).early

/-- A sample taken before the operands have been at the port for `T_SETTLE` shows a free value
(93_implementation_defined.md U7) and changes nothing else at the ports: whatever value the free constant has. The
time counts from the drive, or from before it when the same operands were there already (R191). The counter of the
free values is the model's (log entry 8, DESIGN CHOICE). -/
def Obligations.EarlySampleIsAFreeValue : Prop :=
  ∀ (t : Timed) (i : Instr) (n : Nat),
    (if t.state.present i.unit = i then t.held i.unit else 0) + n < Config.tSettle →
    (t.run [.drive i, .wait n, .sample i.unit]).state =
      (t.state.drive i).record i (portByte i.unit (Config.unsettledOutput t.early)) ∧
    (t.run [.drive i, .wait n, .sample i.unit]).early = t.early + 1

/-! ### Written syntax -/

/-- 30_encoding.md R76 and R77: an operation written down in any of the three forms of numbers, with or without a
comment after it, is read back as itself, and so is `SYND c`, which is `REM c, 0xB` with the word `cat(00, c, 1011)`;
for every operand value. The blanks are the model's choice (log entry 9). -/
def Obligations.WrittenOperationsReadBack : Prop :=
  (∀ (f : NumberForm) (i : Instr) (comment : String),
    readOperation (writeOperation f i) = some i ∧
    readOperation (writeOperation f i ++ " ;" ++ comment) = some i) ∧
  (∀ (f : NumberForm) (c : Codeword) (comment : String),
    readOperation (writeSynd f c) = some (.rem c 0xB) ∧
    readOperation (writeSynd f c ++ " ;" ++ comment) = some (.rem c 0xB) ∧
    encodeWord (synd c) = 0b00#2 ++ c ++ 0b1011#4)
end

