-- ==== Sys2Proof/Laws/State.lean ====
section
/-! SUPPORT. Every field of State after every update of Machine/Ops.lean, so that no later proof unfolds a record
update. -/

namespace Sys2Proof.Machine

variable (s : State)

@[simp] theorem State.driveRem_remDividend (d : Codeword) (g : Generator) : (s.driveRem d g).remDividend = d := rfl
@[simp] theorem State.driveRem_remGenerator (d : Codeword) (g : Generator) : (s.driveRem d g).remGenerator = g := rfl
@[simp] theorem State.driveRem_encMessage (d : Codeword) (g : Generator) : (s.driveRem d g).encMessage = s.encMessage := rfl
@[simp] theorem State.driveRem_decCodeword (d : Codeword) (g : Generator) : (s.driveRem d g).decCodeword = s.decCodeword := rfl
@[simp] theorem State.driveRem_synSyndrome (d : Codeword) (g : Generator) : (s.driveRem d g).synSyndrome = s.synSyndrome := rfl
@[simp] theorem State.driveRem_pending (d : Codeword) (g : Generator) : (s.driveRem d g).pending = s.pending := rfl
@[simp] theorem State.driveRem_observed (d : Codeword) (g : Generator) : (s.driveRem d g).observed = s.observed := rfl

@[simp] theorem State.driveEnc_remDividend (b : Byte) : (s.driveEnc b).remDividend = s.remDividend := rfl
@[simp] theorem State.driveEnc_remGenerator (b : Byte) : (s.driveEnc b).remGenerator = s.remGenerator := rfl
@[simp] theorem State.driveEnc_encMessage (b : Byte) : (s.driveEnc b).encMessage = b := rfl
@[simp] theorem State.driveEnc_decCodeword (b : Byte) : (s.driveEnc b).decCodeword = s.decCodeword := rfl
@[simp] theorem State.driveEnc_synSyndrome (b : Byte) : (s.driveEnc b).synSyndrome = s.synSyndrome := rfl
@[simp] theorem State.driveEnc_pending (b : Byte) : (s.driveEnc b).pending = s.pending := rfl
@[simp] theorem State.driveEnc_observed (b : Byte) : (s.driveEnc b).observed = s.observed := rfl

@[simp] theorem State.driveDec_remDividend (b : Byte) : (s.driveDec b).remDividend = s.remDividend := rfl
@[simp] theorem State.driveDec_remGenerator (b : Byte) : (s.driveDec b).remGenerator = s.remGenerator := rfl
@[simp] theorem State.driveDec_encMessage (b : Byte) : (s.driveDec b).encMessage = s.encMessage := rfl
@[simp] theorem State.driveDec_decCodeword (b : Byte) : (s.driveDec b).decCodeword = b := rfl
@[simp] theorem State.driveDec_synSyndrome (b : Byte) : (s.driveDec b).synSyndrome = s.synSyndrome := rfl
@[simp] theorem State.driveDec_pending (b : Byte) : (s.driveDec b).pending = s.pending := rfl
@[simp] theorem State.driveDec_observed (b : Byte) : (s.driveDec b).observed = s.observed := rfl

@[simp] theorem State.driveSyn_remDividend (k : Syndrome) : (s.driveSyn k).remDividend = s.remDividend := rfl
@[simp] theorem State.driveSyn_remGenerator (k : Syndrome) : (s.driveSyn k).remGenerator = s.remGenerator := rfl
@[simp] theorem State.driveSyn_encMessage (k : Syndrome) : (s.driveSyn k).encMessage = s.encMessage := rfl
@[simp] theorem State.driveSyn_decCodeword (k : Syndrome) : (s.driveSyn k).decCodeword = s.decCodeword := rfl
@[simp] theorem State.driveSyn_synSyndrome (k : Syndrome) : (s.driveSyn k).synSyndrome = k := rfl
@[simp] theorem State.driveSyn_pending (k : Syndrome) : (s.driveSyn k).pending = s.pending := rfl
@[simp] theorem State.driveSyn_observed (k : Syndrome) : (s.driveSyn k).observed = s.observed := rfl

@[simp] theorem State.record_remDividend (i : Instr) (y : Byte) : (s.record i y).remDividend = s.remDividend := rfl
@[simp] theorem State.record_remGenerator (i : Instr) (y : Byte) : (s.record i y).remGenerator = s.remGenerator := rfl
@[simp] theorem State.record_encMessage (i : Instr) (y : Byte) : (s.record i y).encMessage = s.encMessage := rfl
@[simp] theorem State.record_decCodeword (i : Instr) (y : Byte) : (s.record i y).decCodeword = s.decCodeword := rfl
@[simp] theorem State.record_synSyndrome (i : Instr) (y : Byte) : (s.record i y).synSyndrome = s.synSyndrome := rfl
@[simp] theorem State.record_pending (i : Instr) (y : Byte) : (s.record i y).pending = s.pending := rfl
@[simp] theorem State.record_observed (i : Instr) (y : Byte) : (s.record i y).observed = s.observed ++ [{ operation := i, result := y }] := rfl

@[simp] theorem State.placeWord_remDividend (w : OpWord) : (s.placeWord w).remDividend = s.remDividend := rfl
@[simp] theorem State.placeWord_remGenerator (w : OpWord) : (s.placeWord w).remGenerator = s.remGenerator := rfl
@[simp] theorem State.placeWord_encMessage (w : OpWord) : (s.placeWord w).encMessage = s.encMessage := rfl
@[simp] theorem State.placeWord_decCodeword (w : OpWord) : (s.placeWord w).decCodeword = s.decCodeword := rfl
@[simp] theorem State.placeWord_synSyndrome (w : OpWord) : (s.placeWord w).synSyndrome = s.synSyndrome := rfl
@[simp] theorem State.placeWord_pending (w : OpWord) : (s.placeWord w).pending = w :: s.pending := rfl
@[simp] theorem State.placeWord_observed (w : OpWord) : (s.placeWord w).observed = s.observed := rfl

end Sys2Proof.Machine
end

