-- ==== Sys2Proof/Laws/Ops.lean ====
section
/-! SUPPORT. The output ports after each shared operation: a group's output follows its own inputs only
(10_state.md R28), and the host's writing down changes no wire. -/

namespace Sys2Proof.Machine

variable (s : State)

@[simp] theorem State.driveRem_remResult (d : Codeword) (g : Generator) : (s.driveRem d g).remResult = rem d g := rfl
@[simp] theorem State.driveRem_encCodeword (d : Codeword) (g : Generator) :
    (s.driveRem d g).encCodeword = s.encCodeword := rfl
@[simp] theorem State.driveRem_decMessage (d : Codeword) (g : Generator) :
    (s.driveRem d g).decMessage = s.decMessage := rfl
@[simp] theorem State.driveRem_synMask (d : Codeword) (g : Generator) : (s.driveRem d g).synMask = s.synMask := rfl

@[simp] theorem State.driveEnc_remResult (b : Byte) : (s.driveEnc b).remResult = s.remResult := rfl
@[simp] theorem State.driveEnc_encCodeword (b : Byte) : (s.driveEnc b).encCodeword = enc b := rfl
@[simp] theorem State.driveEnc_decMessage (b : Byte) : (s.driveEnc b).decMessage = s.decMessage := rfl
@[simp] theorem State.driveEnc_synMask (b : Byte) : (s.driveEnc b).synMask = s.synMask := rfl

@[simp] theorem State.driveDec_remResult (b : Byte) : (s.driveDec b).remResult = s.remResult := rfl
@[simp] theorem State.driveDec_encCodeword (b : Byte) : (s.driveDec b).encCodeword = s.encCodeword := rfl
@[simp] theorem State.driveDec_decMessage (b : Byte) : (s.driveDec b).decMessage = dec b := rfl
@[simp] theorem State.driveDec_synMask (b : Byte) : (s.driveDec b).synMask = s.synMask := rfl

@[simp] theorem State.driveSyn_remResult (k : Syndrome) : (s.driveSyn k).remResult = s.remResult := rfl
@[simp] theorem State.driveSyn_encCodeword (k : Syndrome) : (s.driveSyn k).encCodeword = s.encCodeword := rfl
@[simp] theorem State.driveSyn_decMessage (k : Syndrome) : (s.driveSyn k).decMessage = s.decMessage := rfl
@[simp] theorem State.driveSyn_synMask (k : Syndrome) : (s.driveSyn k).synMask = syn k := rfl

@[simp] theorem State.record_remResult (i : Instr) (y : Byte) : (s.record i y).remResult = s.remResult := rfl
@[simp] theorem State.record_encCodeword (i : Instr) (y : Byte) : (s.record i y).encCodeword = s.encCodeword := rfl
@[simp] theorem State.record_decMessage (i : Instr) (y : Byte) : (s.record i y).decMessage = s.decMessage := rfl
@[simp] theorem State.record_synMask (i : Instr) (y : Byte) : (s.record i y).synMask = s.synMask := rfl

/-- The sequence has ended: there is no word to take. -/
theorem State.fetch_of_nil (h : s.pending = []) : s.fetch = none := by
  unfold State.fetch; rw [h]

/-- Taking a word takes the first one and changes nothing else. -/
theorem State.fetch_of_cons {w : OpWord} {rest : List OpWord} (h : s.pending = w :: rest) :
    s.fetch = some (w, { s with pending := rest }) := by
  unfold State.fetch; rw [h]

/-- A word just put in front is the next one taken, and the state is then as before. -/
@[simp] theorem State.fetch_placeWord (w : OpWord) : (s.placeWord w).fetch = some (w, s) := rfl

end Sys2Proof.Machine
end

