-- ==== Sys2Proof/Laws/PerInstr.lean ====
section
/-! SUPPORT. Per operation, as syntax: its operands are in range (30_encoding.md R74) and its word selects the row of
its own unit and no other (R70). -/

namespace Sys2Proof.Laws.RowMatch

/-- The operation is well-formed and its word selects exactly its own row of the opcode table. -/
def Statement (i : Instr) : Prop :=
  i.wellFormed = true ∧ opcodeTable.filter (·.selects (encodeWord i)) = opcodeTable.filter (·.unit == i.unit)

theorem rem (d : Codeword) (g : Generator) : Statement (.rem d g) :=
  ⟨by simp [Instr.wellFormed]; omega, by revert d g; decide⟩

theorem enc (b : Byte) : Statement (.enc b) :=
  ⟨by simp [Instr.wellFormed]; omega, by revert b; decide⟩

theorem dec (b : Byte) : Statement (.dec b) :=
  ⟨by simp [Instr.wellFormed]; omega, by revert b; decide⟩

theorem syn (s : Syndrome) : Statement (.syn s) :=
  ⟨by simp [Instr.wellFormed]; omega, by revert s; decide⟩

end Sys2Proof.Laws.RowMatch
end

