-- ==== Sys2Proof/Laws/Protocol.lean ====
section
/-! SUPPORT. What each host action of the timed port protocol changes. -/

namespace Sys2Proof.Machine

variable (t : Timed)

@[simp] theorem Timed.run_nil : t.run [] = t := rfl
@[simp] theorem Timed.run_cons (a : HostAction) (as : List HostAction) : t.run (a :: as) = (t.act a).run as := rfl
theorem Timed.run_append (as bs : List HostAction) : t.run (as ++ bs) = (t.run as).run bs :=
  List.foldl_append

@[simp] theorem Timed.act_drive (i : Instr) : t.act (.drive i) = t.drive i := rfl
@[simp] theorem Timed.act_wait (n : Nat) : t.act (.wait n) = t.wait n := rfl
@[simp] theorem Timed.act_sample (u : PortGroup) : t.act (.sample u) = t.sample u := rfl

@[simp] theorem Timed.wait_state (n : Nat) : (t.wait n).state = t.state := rfl
@[simp] theorem Timed.wait_held (n : Nat) (u : PortGroup) : (t.wait n).held u = t.held u + n := by cases u <;> rfl
@[simp] theorem State.present_unit (s : State) (u : PortGroup) : (s.present u).unit = u := by cases u <;> rfl

/-- Sampling is writing down the operands present with their unit's result. -/
theorem State.sample_eq_record (s : State) (u : PortGroup) :
    s.sample u = s.record (s.present u) (resultByte (s.present u)) := by cases u <;> rfl

/-- Driving the operands already present changes nothing. -/
@[simp] theorem State.drive_self (s : State) (u : PortGroup) : s.drive (s.present u) = s := by cases u <;> rfl

/-- Driving the operands already present keeps the holding time going (70_reset_and_hazards.md R191). -/
theorem Timed.drive_of_present {i : Instr} (h : t.state.present i.unit = i) : t.drive i = t := if_pos h

@[simp] theorem Timed.drive_state (i : Instr) : (t.drive i).state = t.state.drive i := by
  by_cases h : t.state.present i.unit = i
  · have hs := t.state.drive_self i.unit
    rw [h] at hs
    rw [Timed.drive_of_present t h, hs]
  · rw [Timed.drive, if_neg h]; cases i <;> rfl

@[simp] theorem Timed.drive_held (i : Instr) :
    (t.drive i).held i.unit = if t.state.present i.unit = i then t.held i.unit else 0 := by
  unfold Timed.drive; split
  · rfl
  · cases i <;> rfl

@[simp] theorem Timed.drive_early (i : Instr) : (t.drive i).early = t.early := by
  unfold Timed.drive; split
  · rfl
  · cases i <;> rfl

/-- Driving another group leaves this group's holding time. -/
theorem Timed.drive_held_of_ne {i : Instr} {u : PortGroup} (h : i.unit ≠ u) : (t.drive i).held u = t.held u := by
  unfold Timed.drive; split
  · rfl
  · cases i <;> cases u <;> first | rfl | exact absurd rfl h

/-- Driving another group leaves the operands present at this one (10_state.md R28). -/
theorem State.drive_present_of_ne (s : State) {i : Instr} {u : PortGroup} (h : i.unit ≠ u) :
    (s.drive i).present u = s.present u := by
  cases i <;> cases u <;> first | rfl | exact absurd rfl h

@[simp] theorem State.drive_present (s : State) (i : Instr) : (s.drive i).present i.unit = i := by cases i <;> rfl
@[simp] theorem State.record_present (s : State) (i : Instr) (y : Byte) (u : PortGroup) :
    (s.record i y).present u = s.present u := by cases u <;> rfl
@[simp] theorem State.sample_present (s : State) (u v : PortGroup) : (s.sample u).present v = s.present v := by
  cases u <;> cases v <;> rfl

/-- A sample takes no time and drives nothing. -/
@[simp] theorem Timed.sample_held (u v : PortGroup) : (t.sample u).held v = t.held v := by
  unfold Timed.sample; split <;> cases v <;> rfl

@[simp] theorem Timed.sample_present (u v : PortGroup) :
    (t.sample u).state.present v = t.state.present v := by
  unfold Timed.sample; split <;> simp

end Sys2Proof.Machine
end

