-- ==== Sys2Proof/Laws/Step.lean ====
section
/-! SUPPORT. What `exec` and `step` can do, said once. -/

namespace Sys2Proof.Machine

/-- Performing an operation is driving its unit's inputs and writing down the operation with its result byte. -/
theorem exec_eq_record (i : Instr) (s : State) :
    ∃ u : State, exec i s = .next (u.record i (resultByte i)) ∧ u.pending = s.pending ∧ u.observed = s.observed := by
  cases i with
  | rem d g => exact ⟨s.driveRem d g, rfl, rfl, rfl⟩
  | enc b => exact ⟨s.driveEnc b, rfl, rfl, rfl⟩
  | dec b => exact ⟨s.driveDec b, rfl, rfl, rfl⟩
  | syn k => exact ⟨s.driveSyn k, rfl, rfl, rfl⟩

/-- Everything a step can do: stop moving because the sequence has ended, perform the first word's operation, or
refuse the first word. -/
theorem step_cases (s : State) :
    (s.pending = [] ∧ step s = .next s) ∨
    (∃ w rest i, s.pending = w :: rest ∧ decodeWord w = .operation i ∧
      step s = exec i { s with pending := rest }) ∨
    (∃ w rest, s.pending = w :: rest ∧ decodeWord w = .invalidOperationWord ∧
      step s = .refused .invalidOperationWord) := by
  unfold step
  cases hp : s.pending with
  | nil => exact .inl ⟨rfl, by rw [State.fetch_of_nil s hp]⟩
  | cons w rest =>
    rw [State.fetch_of_cons s hp]
    cases hd : decodeWord w with
    | operation i => exact .inr (.inl ⟨w, rest, i, rfl, hd, by simp [hd]⟩)
    | invalidOperationWord => exact .inr (.inr ⟨w, rest, rfl, hd, by simp [hd]⟩)

end Sys2Proof.Machine
end

