-- ==== Sys2Proof/Laws/Units.lean ====
section
/-! SUPPORT. The small lemmas of the unit functions and of the decoder. -/

namespace Sys2Proof.Machine

/-- A divider stage whose examined bit is clear does nothing (40_remainder.md R92). -/
theorem divStage_of_clear {k n : Nat} {g : Generator} {d : Codeword} (h : d.getLsbD k = false) :
    divStage k n g d = d := by simp [divStage, h]

/-- A divider stage whose examined bit is set XORs the shifted generator (R92). -/
theorem divStage_of_set {k n : Nat} {g : Generator} {d : Codeword} (h : d.getLsbD k = true) :
    divStage k n g d = d ^^^ (g.setWidth 7 <<< n) := by simp [divStage, h]

/-- A divider stage on the zero dividend leaves it zero, whatever the generator. -/
@[simp] theorem divStage_zero (k n : Nat) (g : Generator) : divStage k n g 0 = 0 := by simp [divStage]

/-- "Because `SYNROM[0] = 0`, the conditional of steps 3 and 4 gives the same value as the unconditional"
(42_decoder.md R132). -/
theorem decMask_eq_synrom (b : Byte) : decMask b = synrom (decSyndrome b) := by
  unfold decMask syndromeIsZero
  generalize decSyndrome b = k
  revert k; decide

end Sys2Proof.Machine

namespace Sys2Proof

/-- The decoder's answer, read backwards: the word's unit number and operand bits (30_encoding.md R72). -/
theorem decodeWord_cases (w : OpWord) :
    (w.extractLsb' 11 2 = 0 ∧ decodeWord w = .operation (.rem (w.extractLsb' 4 7) (w.extractLsb' 0 4))) ∨
    (w.extractLsb' 11 2 = 1 ∧ w.extractLsb' 8 3 = 0 ∧ decodeWord w = .operation (.enc (w.extractLsb' 0 8))) ∨
    (w.extractLsb' 11 2 = 2 ∧ w.extractLsb' 8 3 = 0 ∧ decodeWord w = .operation (.dec (w.extractLsb' 0 8))) ∨
    (w.extractLsb' 11 2 = 3 ∧ w.extractLsb' 3 8 = 0 ∧ decodeWord w = .operation (.syn (w.extractLsb' 0 3))) ∨
    decodeWord w = .invalidOperationWord := by
  unfold decodeWord
  split
  · next h => exact .inl ⟨h, rfl⟩
  split
  · next h => exact .inr (.inl ⟨h.1, h.2, rfl⟩)
  split
  · next h => exact .inr (.inr (.inl ⟨h.1, h.2, rfl⟩))
  split
  · next h => exact .inr (.inr (.inr (.inl ⟨h.1, h.2, rfl⟩)))
  · exact .inr (.inr (.inr (.inr rfl)))

end Sys2Proof
end

