-- ==== Sys2Proof/Tests/Slice0.lean ====
section
/-! SUPPORT. The model's own tests. Every expected value is the spec's: the words of 30_encoding.md R78 and
95_test_vectors.md section 3, the document's scenario (section 1.1), and the tables of sections 2.1 to 2.5. After them,
a witness for every statement of Certificates/Slice0/Obligations.lean that has a hypothesis. -/

namespace Sys2Proof.Tests

open Machine

/-- The state after reset with this sequence pending. -/
def bench (words : List OpWord) : State := { State.reset with pending := words }

/-- What has been observed when a step has gone on; nothing when it stopped. -/
def observedAfter : Host.Outcome State Fault Refusal → List Observation
  | .next s => s.observed
  | .fault _ => []
  | .refused _ => []

/-! ### Well-formed words and decoding -/

/-- The opcode table's check refuses a stray bit of each row (30_encoding.md R78; 95_test_vectors.md section 3). -/
theorem test_ill_formed_words_refused :
    validWord 0x090A = false ∧ validWord 0x0C0A = false ∧ validWord 0x0FFF = false ∧ validWord 0x1152 = false ∧
    validWord 0x1252 = false ∧ validWord 0x1808 = false ∧ validWord 0x180B = false ∧ validWord 0x1C03 = false ∧
    validWord 0x1FFF = false := by decide

theorem test_well_formed_words :
    validWord 0x0000 = true ∧ validWord 0x07FF = true ∧ validWord 0x08FF = true ∧ validWord 0x10D3 = true ∧
    validWord 0x1807 = true := by decide

/-- `REM 0x53, 0xB` is `cat(00, 1010011, 1011)` (R78). -/
theorem test_decode_rem : decodeWord 0b00_1010011_1011 = .operation (.rem 0x53 0xB) := by decide

/-- `ENC 0x0A` is `cat(01000, 00001010)` (R78). -/
theorem test_decode_enc : decodeWord 0b01000_00001010 = .operation (.enc 0x0A) := by decide

/-- `DEC 0x52` is `cat(10000, 01010010)` (R78). -/
theorem test_decode_dec : decodeWord 0b10000_01010010 = .operation (.dec 0x52) := by decide

/-- `SYN 3` is `cat(1100000000, 011)` (R78). -/
theorem test_decode_syn : decodeWord 0b1100000000_011 = .operation (.syn 3) := by decide

theorem test_decode_invalid :
    decodeWord 0x0C0A = .invalidOperationWord ∧ decodeWord 0x1252 = .invalidOperationWord ∧
    decodeWord 0x1C03 = .invalidOperationWord ∧ decodeWord 0x1FFF = .invalidOperationWord := by decide

/-- Table words: 13 bits in two bytes, bits above `nbits` zero, and a wider number is no operation word (R75). -/
theorem test_table_words :
    decodeTableWord 16 0x080A = some (.enc 0x0A) ∧ decodeTableWord 13 0x1803 = some (.syn 3) ∧
    decodeTableWord 16 0x090A = none ∧ decodeTableWord 16 0x2000 = none := by decide

/-- `SYND 83` is the word `0x053B` (R77). -/
theorem test_synd : encodeWord (synd 83) = 0x053B := by decide

/-! ### Units and steps -/

/-- `REM 83, 0xB -> 0`, the "zero syndrome" (95_test_vectors.md S4). -/
theorem test_step_rem :
    observedAfter (step (State.reset.withFetchWord 16 0x053B)) = [⟨.rem 83 0xB, 0⟩] := by decide

/-- `ENC 10 -> 83` (S1). -/
theorem test_step_enc :
    observedAfter (step (State.reset.withFetchWord 16 0x080A)) = [⟨.enc 10, 83⟩] := by decide

/-- `DEC 82 -> 10` (S2). -/
theorem test_step_dec :
    observedAfter (step (State.reset.withFetchWord 16 0x1052)) = [⟨.dec 82, 10⟩] := by decide

/-- `SYN 3 -> 0x08` (section 1.2). -/
theorem test_step_syn :
    observedAfter (step (State.reset.withFetchWord 16 0x1803)) = [⟨.syn 3, 0x08⟩] := by decide

/-- The invalid word `0x090A` is refused by name (R73). -/
theorem test_step_invalid : step (State.reset.withFetchWord 16 0x090A) = .refused .invalidOperationWord := rfl

/-- Sections 2.1 and 2.2: `rem(d, 0xB)` for every dividend, and `rem(1 << p, g)` for every generator. -/
theorem test_rem_tables :
    (List.range 128).map (fun n => (rem (BitVec.ofNat 7 n) 0xB).toNat) =
      [0, 1, 2, 3, 4, 5, 6, 7, 3, 2, 1, 0, 7, 6, 5, 4] ++ [6, 7, 4, 5, 2, 3, 0, 1, 5, 4, 7, 6, 1, 0, 3, 2] ++
      [7, 6, 5, 4, 3, 2, 1, 0, 4, 5, 6, 7, 0, 1, 2, 3] ++ [1, 0, 3, 2, 5, 4, 7, 6, 2, 3, 0, 1, 6, 7, 4, 5] ++
      [5, 4, 7, 6, 1, 0, 3, 2, 6, 7, 4, 5, 2, 3, 0, 1] ++ [3, 2, 1, 0, 7, 6, 5, 4, 0, 1, 2, 3, 4, 5, 6, 7] ++
      [2, 3, 0, 1, 6, 7, 4, 5, 1, 0, 3, 2, 5, 4, 7, 6] ++ [4, 5, 6, 7, 0, 1, 2, 3, 7, 6, 5, 4, 3, 2, 1, 0] ∧
    (List.range 16).map (fun g => (List.range 7).map (fun p => (rem (oneBit p) (BitVec.ofNat 4 g)).toNat)) =
      [[1, 2, 4, 0, 0, 0, 0], [1, 2, 4, 1, 2, 4, 1], [1, 2, 4, 2, 4, 2, 4], [1, 2, 4, 3, 6, 7, 5]] ++
      [[1, 2, 4, 4, 4, 4, 4], [1, 2, 4, 5, 7, 3, 6], [1, 2, 4, 6, 2, 4, 6], [1, 2, 4, 7, 1, 2, 4]] ++
      [[1, 2, 4, 0, 0, 0, 0], [1, 2, 4, 1, 2, 4, 1], [1, 2, 4, 2, 4, 2, 4], [1, 2, 4, 3, 6, 7, 5]] ++
      [[1, 2, 4, 4, 4, 4, 4], [1, 2, 4, 5, 7, 3, 6], [1, 2, 4, 6, 2, 4, 6], [1, 2, 4, 7, 1, 2, 4]] := by
  decide +kernel

/-- Section 2.4: every `ENC` result, and the spot vectors with high bits set. -/
theorem test_enc_table :
    (List.range 16).map (fun m => (enc (BitVec.ofNat 8 m)).toNat) =
      [0, 11, 22, 29, 39, 44, 49, 58, 69, 78, 83, 88, 98, 105, 116, 127] ∧
    enc 0xFA = 0x53 ∧ enc 0xF0 = 0x00 ∧ enc 0xFF = 0x7F ∧ enc 0x80 = 0x00 ∧ enc 0x1B = 0x58 ∧ enc 0x95 = 0x2C := by
  decide +kernel

/-- Section 2.3: `dec(b)` for `b` = 0 to 127, and the same for 128 to 255. -/
theorem test_dec_table :
    let row :=
      [0, 0, 0, 1, 0, 8, 2, 4, 0, 1, 1, 1, 5, 3, 9, 1] ++ [0, 6, 2, 10, 2, 3, 2, 2, 11, 3, 7, 1, 3, 3, 2, 3] ++
      [0, 6, 12, 4, 5, 4, 4, 4, 5, 13, 7, 1, 5, 5, 5, 4] ++ [6, 6, 7, 6, 14, 6, 2, 4, 7, 6, 7, 7, 5, 3, 7, 15] ++
      [0, 8, 12, 10, 8, 8, 9, 8, 11, 13, 9, 1, 9, 8, 9, 9] ++
      [11, 10, 10, 10, 14, 8, 2, 10, 11, 11, 11, 10, 11, 3, 9, 15] ++
      [12, 13, 12, 12, 14, 8, 12, 4, 13, 13, 12, 13, 5, 13, 9, 15] ++
      [14, 6, 12, 10, 14, 14, 14, 15, 11, 13, 7, 15, 14, 15, 15, 15]
    (List.range 128).map (fun n => (dec (BitVec.ofNat 8 n)).toNat) = row ∧
    (List.range 128).map (fun n => (dec (BitVec.ofNat 8 (128 + n))).toNat) = row := by
  decide +kernel

/-- Section 1.2: the document's own table, syndromes 0 to 7. -/
theorem test_syn_table :
    (List.range 8).map (fun k => (syn (BitVec.ofNat 3 k)).toNat) = [0, 1, 2, 8, 4, 64, 16, 32] := by decide

/-- `REM 0x60, 0xB` with its four intermediate values (section 2.2): 2, where testing the dividend's own bits in
parallel would give 4 (40_remainder.md R93). -/
theorem test_rem_chained :
    remD1 0x60 0xB = 0b0111000 ∧ remD2 0x60 0xB = 0b0010100 ∧ remD3 0x60 0xB = 0b0000010 ∧
    remD4 0x60 0xB = 0b0000010 ∧ rem 0x60 0xB = 2 := by decide

/-- Two flips are miscorrected (section 2.7, second to fourth sample): internal values and result. -/
theorem test_dec_internal_values :
    decSyndrome 0x12 = 4 ∧ decMask 0x12 = 0x04 ∧ decCorrected 0x12 = 0x16 ∧ dec 0x12 = 2 ∧
    decSyndrome 0x5F = 7 ∧ decMask 0x5F = 0x20 ∧ decCorrected 0x5F = 0x7F ∧ dec 0x5F = 15 := by decide

/-! ### Written syntax -/

/-- The forms of numbers, the comment and `SYND` (30_encoding.md R76, R77). -/
theorem test_written_syntax :
    readOperation "REM 0x53, 0xB" = some (.rem 0x53 0xB) ∧ readOperation "ENC 10 ; a comment" = some (.enc 10) ∧
    readOperation "DEC 0b1010010" = some (.dec 82) ∧ readOperation "SYND 83" = some (synd 83) ∧
    readOperation "SYN 8" = none ∧ readOperation "NOP" = none := by decide

/-- `ENC 10` in decimal, and `REM 83, 11` in hexadecimal. -/
theorem test_written_observation :
    writeObservation .decimal ⟨.enc 10, 83⟩ = "ENC 10 -> 83" ∧
    writeObservation .hexadecimal ⟨.rem 83 11, 0⟩ = "REM 0x53, 0xb -> 0x0" := by decide

/-! ### Witnesses: the hypotheses of each statement can be met -/

theorem witness_StepPerformsTheDecodedOperation :
    (bench [0x080A, 0x1803]).pending = 0x080A :: [0x1803] ∧ decodeWord 0x080A = .operation (.enc 0x0A) := by decide

theorem witness_StepPerformsTheRowTheWordSelects :
    (bench [0x07FF]).pending = 0x07FF :: [] ∧ (0x07FF : OpWord) &&& 0x1800 = 0x0000 ∧
    (bench [0x08FF]).pending = 0x08FF :: [] ∧ (0x08FF : OpWord) &&& 0x1F00 = 0x0800 ∧
    (bench [0x10FF]).pending = 0x10FF :: [] ∧ (0x10FF : OpWord) &&& 0x1F00 = 0x1000 ∧
    (bench [0x1807]).pending = 0x1807 :: [] ∧ (0x1807 : OpWord) &&& 0x1FF8 = 0x1800 := by decide

theorem witness_InvalidWordIsRefusedByName :
    (bench [0x1808]).pending = 0x1808 :: [] ∧ step (bench [0x1808]) = .refused .invalidOperationWord ∧
    step (bench [0x0900]) = .refused .invalidOperationWord ∧ step (bench [0x1700]) = .refused .invalidOperationWord :=
  ⟨rfl, rfl, rfl, rfl⟩

theorem witness_OnlyAnInvalidWordStopsAStep : step (bench [0x1FFF]) = .refused .invalidOperationWord := rfl

theorem witness_SafeRunsNeverStop : (bench [0x053B, 0x080A, 0x1052, 0x1803]).safe = true := by decide

theorem witness_PlacedTableWordIsPerformedNext :
    decodeTableWord 16 0x1052 = some (.dec 0x52) ∧ decodeTableWord 16 0x1152 = none := by decide

theorem witness_EndedSequenceStepsIdly : State.reset.pending = [] := rfl

theorem witness_RemIsThePolynomialRemainder : gen.getLsbD 3 = true := by decide

theorem witness_RemClosedFormForGen : (State.reset.driveRem 0x6C 0xB).remGenerator = 0xB := rfl

theorem witness_RemWithoutLeadingBitIsDefined : (0b0011 : Generator).getLsbD 3 = false := by decide

theorem witness_RemCornerCases :
    (0b0000111 : Codeword).extractLsb' 3 4 = 0 ∧ (0b1111 : Generator).getLsbD 3 = true := by decide

theorem witness_CodeIsLinearWithDistanceThree :
    validCodeword 0x53 = true ∧ validCodeword 0x58 = true ∧ (0x53 : Codeword) ≠ 0x58 ∧
    validCodeword 0 = true ∧ messageBits 0 = 0 := by decide

theorem witness_CodewordsHaveRemainderZero : rem 0x53 0xB = 0 ∧ validCodeword 0x53 = true := by decide

theorem witness_UncorruptedCodewordsDecode :
    validCodeword ((State.reset.driveDec 0xD3).decCodeword.extractLsb' 0 7) = true := by decide

theorem witness_EverySingleFlipIsCorrected : 0 < 7 ∧ 6 < 7 ∧ rem (oneBit 6) gen = rem (oneBit 6) gen := by decide

theorem witness_EncodeFlipDecodeRecoversTheMessage :
    weight (0x40 : Codeword) ≤ 1 ∧ weight (0 : Codeword) ≤ 1 ∧
    (bench [0x08FA, 0x1013]).pending =
      encodeWord (.enc 0xFA) :: encodeWord (.dec (enc 0xFA ^^^ (0x40 : Codeword).setWidth 8)) :: [] := by decide

theorem witness_DecFindsTheUniqueNearestCodeword :
    validCodeword 0x27 = true ∧ weight ((State.reset.driveDec 0x07).decCodeword.extractLsb' 0 7 ^^^ 0x27) ≤ 1 := by
  decide

/-- Two flips; three flips with and without a zero syndrome (95_test_vectors.md section 2.7). -/
theorem witness_TwoOrMoreFlipsAlwaysMiscorrect :
    weight (0x41 : Codeword) = 2 ∧ weight (0x07 : Codeword) = 3 ∧ weight (0x0B : Codeword) = 3 ∧
    decSyndrome (enc 10 ^^^ 0x0B) = 0 ∧ decSyndrome (enc 10 ^^^ 0x07) = 7 := by decide

/-- Every syndrome the clauses name occurs (42_decoder.md R140). -/
theorem witness_DecMessageClosedForm :
    [0x52, 0x51, 0x57, 0x5B, 0x43, 0x73, 0x13].map decSyndrome = [1, 2, 4, 3, 6, 7, 5] := by decide

theorem witness_TableInvertsSingleErrorSyndromes :
    6 < 7 ∧ validCodeword 0x2C = true ∧ (5 : Syndrome) ≠ 0 := by decide

theorem witness_MaskIsOneHot :
    (State.reset.driveSyn 5).synSyndrome = 5 ∧ (State.reset.driveSyn 4).synSyndrome = 4 ∧
    State.reset.synSyndrome = 0 ∧ (State.reset.driveSyn 5).synMask = ((bench [0]).driveSyn 5).synMask ∧
    weight (0x40 : Codeword) = 1 := by decide

theorem witness_AllEightSynWords : (bench [0x1800]).pending = 0x1800 :: [] ∧ (bench [0x1807]).pending = 0x1807 :: [] :=
  ⟨rfl, rfl⟩

theorem witness_FixedOutputBits :
    (State.reset.driveSyn 1).synSyndrome ≠ 0 ∧ State.reset.synSyndrome = 0 ∧ 2 < 3 ∧ 6 < 7 ∧ 3 < 4 := by decide

theorem witness_ResultByteIsTheSampledPort : (bench [0x080A]).pending = 0x080A :: [] := rfl

theorem witness_PortGroupsAreIndependent :
    State.reset ≠ State.reset.driveEnc 1 ∧ State.reset.remDividend = (State.reset.driveEnc 1).remDividend ∧
    State.reset.remGenerator = (State.reset.driveEnc 1).remGenerator ∧
    State.reset.encMessage = (State.reset.driveDec 1).encMessage ∧
    State.reset.decCodeword = (State.reset.driveSyn 1).decCodeword ∧
    State.reset.synSyndrome = (State.reset.driveEnc 1).synSyndrome ∧
    (Instr.enc 1).unit ≠ .rem ∧ (Instr.dec 1).unit ≠ .enc ∧ (Instr.syn 1).unit ≠ .dec ∧ (Instr.enc 1).unit ≠ .syn := by
  decide

theorem witness_SequenceOutcomeIsTheListOfOutcomes :
    (bench [0x080A, 0x1052, 0x1FFF]).pending = [Instr.enc 0x0A, .dec 0x52].map encodeWord ++ [0x1FFF] := by decide

theorem witness_OrderOfOperationsIsUnobservable : [Instr.enc 1, .syn 2].Perm [.syn 2, .enc 1] :=
  List.Perm.swap _ _ _

theorem witness_StepTakesOneWordAndAddsOneObservation :
    step State.reset = .next State.reset ∧ ∃ t, step (bench [0x080A]) = .next t := ⟨rfl, _, rfl⟩

theorem witness_StepKeepsObservationsLawful :
    ({ bench [0x1013] with observed := [⟨.enc 0xFA, 0x53⟩] } : State).lawful = true ∧
    ∃ t, step { bench [0x1013] with observed := [⟨.enc 0xFA, 0x53⟩] } = .next t := ⟨by decide, _, rfl⟩

/-- Other groups driven, held and sampled meanwhile, and this one sampled early. -/
theorem witness_SettledSampleGivesTheUnitsValue :
    (∀ a ∈ [HostAction.drive (.enc 5), .sample .rem, .wait Config.tSettle, .sample .enc],
      a.drives (Instr.rem 83 0xB).unit = false) ∧
    Config.tSettle ≤ waited [.drive (.enc 5), .sample .rem, .wait Config.tSettle, .sample .enc] := by
  simp [HostAction.drives, Instr.unit, waited]

theorem witness_ExecIsDriveHoldSample : Config.tSettle ≤ Config.tSettle := Nat.le_refl _

/-- New operands sampled at once; and the same operands driven again, sampled while held for less than `T_SETTLE`. -/
theorem witness_EarlySampleIsAFreeValue :
    let t : Timed := { state := State.reset.driveEnc 5, remHeld := 0, encHeld := 0, decHeld := 0, synHeld := 0, early := 0 }
    (if t.state.present (Instr.enc 7).unit = .enc 7 then t.held (Instr.enc 7).unit else 0) + 0 < Config.tSettle ∧
    (if t.state.present (Instr.enc 5).unit = .enc 5 then t.held (Instr.enc 5).unit else 0) + 0 < Config.tSettle :=
  ⟨Nat.succ_pos _, Nat.succ_pos _⟩

/-- The same operands driven again and another group driven meanwhile, with the holding time partly from before. -/
theorem witness_StableInputsCarryTheUnitsValue :
    let t : Timed := { state := State.reset.driveEnc 5, remHeld := 0, encHeld := 1, decHeld := 0, synHeld := 0, early := 0 }
    (∀ a ∈ [HostAction.drive (.enc 5), .drive (.dec 3), .wait Config.settleMargin],
      a.disturbs (t.state.present .enc) = false) ∧
    Config.tSettle ≤ t.held .enc + waited [.drive (.enc 5), .drive (.dec 3), .wait Config.settleMargin] := by
  refine ⟨by decide, ?_⟩
  simp [Timed.held, waited, Config.tSettle, Nat.add_comm]

end Sys2Proof.Tests
end

/-! ### Facts of the units that fix or free their output bits (10_state.md R31) -/

namespace Sys2Proof.Machine

/-- A zero-extended codeword has bit 7 clear (30_encoding.md R66, R71). -/
@[simp] theorem codewordByte_getLsbD_seven (c : Codeword) : (codewordByte c).getLsbD 7 = false := by
  simp [codewordByte]

/-- A zero-extended message has bits 7:4 clear (R66). -/
@[simp] theorem messageByte_high_bits (m : Message) : (messageByte m).extractLsb' 4 4 = 0 := by
  revert m; decide

/-- A dividend of three bits or fewer is its own remainder, whatever the generator: every stage's examined bit is
clear (40_remainder.md R92). -/
@[simp] theorem rem_setWidth (r : Syndrome) (g : Generator) : rem (r.setWidth 7) g = r := by
  have hclear (k : Nat) (hk : 3 ≤ k) : (r.setWidth 7).getLsbD k = false := by simp [BitVec.getLsbD_of_ge r k hk]
  rw [rem, remD4, remD3, remD2, remD1, divStage_of_clear (hclear 6 (by omega)),
    divStage_of_clear (hclear 5 (by omega)), divStage_of_clear (hclear 4 (by omega)),
    divStage_of_clear (hclear 3 (by omega))]
  ext i hi
  simp [hi, show i < 7 by omega]

/-- The messages 0 and 15 encode to the codewords with all seven bits clear and set (95_test_vectors.md 2.4). -/
theorem enc_fill (v : Bool) : enc (BitVec.fill 8 v) = codewordByte (BitVec.fill 7 v) := by
  cases v <;> decide

/-- Those two codewords are valid, so they decode to 0 and 15 (42_decoder.md R134). -/
theorem dec_fill (v : Bool) : dec (BitVec.fill 8 v) = messageByte (BitVec.fill 4 v) := by
  cases v <;> decide

/-- "No correction" for the zero syndrome (43_syndrome_table.md R151). -/
@[simp] theorem syn_zero : syn 0#3 = 0#7 := by decide

/-- The mask of a nonzero syndrome has exactly one bit set (R151, R155). -/
theorem weight_syn_of_ne_zero {k : Syndrome} : k ≠ 0 → weight (syn k) = 1 := by
  revert k; decide

/-- The table inverts the syndrome of a single-bit error (R153). -/
theorem syn_rem_oneBit {p : Nat} (hp : p < 7) : syn (rem (oneBit p) gen) = oneBit p := by
  revert p; decide

theorem oneBit_getLsbD_self {p : Nat} (hp : p < 7) : (oneBit p).getLsbD p = true := by
  simp [oneBit, hp]

/-! ### An operation as a drive and a sample, and the groups it leaves alone (10_state.md R28) -/

/-- Performing an operation is driving its unit's inputs and sampling that unit's output (70_reset_and_hazards.md
R194). -/
theorem exec_eq_drive_sample (i : Instr) (s : State) : exec i s = .next ((s.drive i).sample i.unit) := by
  cases i <;> rfl

/-- An operation leaves the operands present at every other port group. -/
theorem drive_sample_present_of_ne (s : State) {i : Instr} {u : PortGroup} (h : i.unit ≠ u) :
    ((s.drive i).sample i.unit).present u = s.present u := by
  rw [State.sample_present, State.drive_present_of_ne s h]

/-! Each output port is a function of the operands present at its own group. -/

section
variable {s s' : State}

theorem State.remResult_eq_of_present (h : s.present .rem = s'.present .rem) : s.remResult = s'.remResult := by
  obtain ⟨hd, hg⟩ := Instr.rem.inj h
  rw [State.remResult, hd, hg, State.remResult]

theorem State.encCodeword_eq_of_present (h : s.present .enc = s'.present .enc) : s.encCodeword = s'.encCodeword :=
  congrArg enc (Instr.enc.inj h)

theorem State.decMessage_eq_of_present (h : s.present .dec = s'.present .dec) : s.decMessage = s'.decMessage :=
  congrArg dec (Instr.dec.inj h)

theorem State.synMask_eq_of_present (h : s.present .syn = s'.present .syn) : s.synMask = s'.synMask :=
  congrArg syn (Instr.syn.inj h)

end

/-! ### The output bits at the ports (R31) -/

theorem State.encCodeword_getLsbD_seven (s : State) : s.encCodeword.getLsbD 7 = false :=
  codewordByte_getLsbD_seven _

theorem State.decMessage_high_bits (s : State) : s.decMessage.extractLsb' 4 4 = 0 :=
  messageByte_high_bits _

theorem State.weight_synMask {s : State} (h : s.synSyndrome ≠ 0) : weight s.synMask = 1 :=
  weight_syn_of_ne_zero h

theorem State.synMask_of_zero {s : State} (h : s.synSyndrome = 0) : s.synMask = 0 := by
  simp [State.synMask, h]

section
variable (s : State) (v : Bool) {i : Nat}

theorem State.remResult_bit_takes (hi : i < 3) : ∃ d g, (s.driveRem d g).remResult.getLsbD i = v :=
  ⟨(BitVec.fill 3 v).setWidth 7, gen, by simp [hi]⟩

theorem State.encCodeword_bit_takes (hi : i < 7) : ∃ b, (s.driveEnc b).encCodeword.getLsbD i = v :=
  ⟨BitVec.fill 8 v, by rw [driveEnc_encCodeword, enc_fill]; simp [codewordByte, hi, show i < 8 by omega]⟩

theorem State.decMessage_bit_takes (hi : i < 4) : ∃ b, (s.driveDec b).decMessage.getLsbD i = v :=
  ⟨BitVec.fill 8 v, by rw [driveDec_decMessage, dec_fill]; simp [messageByte, hi, show i < 8 by omega]⟩

/-- Clear in the mask of syndrome 0, set in the mask of the syndrome of a flip of that bit. -/
theorem State.synMask_bit_takes (hi : i < 7) : ∃ k, (s.driveSyn k).synMask.getLsbD i = v := by
  cases v with
  | false => exact ⟨0, by simp⟩
  | true => exact ⟨rem (oneBit i) gen, by rw [driveSyn_synMask, syn_rem_oneBit hi, oneBit_getLsbD_self hi]⟩

end

end Sys2Proof.Machine

namespace Sys2Proof

open Machine

/-- Settles O37: the zero-extensions and the one-hot table fix the bits they fix; the all-clear and all-set operands of
`REM`, `ENC` and `DEC`, and the single-flip syndromes of `SYN`, give every other bit both values. -/
theorem fixedOutputBits : Obligations.FixedOutputBits := by
  refine ⟨fun s => ⟨s.encCodeword_getLsbD_seven, s.decMessage_high_bits, State.weight_synMask,
    State.synMask_of_zero⟩, fun s v i => ?_⟩
  exact ⟨s.remResult_bit_takes v, s.encCodeword_bit_takes v, s.decMessage_bit_takes v, s.synMask_bit_takes v⟩

/-- Settles O39: an output is a function of the operands present at its group, and an operation drives its own group
only. -/
theorem portGroupsAreIndependent : Obligations.PortGroupsAreIndependent := by
  constructor
  · intro s s'
    exact ⟨fun hd hg => State.remResult_eq_of_present (congrArg₂ Instr.rem hd hg),
      fun h => State.encCodeword_eq_of_present (congrArg Instr.enc h),
      fun h => State.decMessage_eq_of_present (congrArg Instr.dec h),
      fun h => State.synMask_eq_of_present (congrArg Instr.syn h)⟩
  · intro i s
    exact ⟨_, exec_eq_drive_sample i s,
      fun h => State.remResult_eq_of_present (drive_sample_present_of_ne s h),
      fun h => State.encCodeword_eq_of_present (drive_sample_present_of_ne s h),
      fun h => State.decMessage_eq_of_present (drive_sample_present_of_ne s h),
      fun h => State.synMask_eq_of_present (drive_sample_present_of_ne s h)⟩

end Sys2Proof

/-! ### A sequence of operations and the list of its outcomes (70_reset_and_hazards.md R197) -/

namespace Sys2Proof

open BitVec in
/-- The decoder reads back the operation a word was written for (30_encoding.md R72): the unit number, the zero bits
and the operands stand where the decoder looks for them. -/
@[simp] theorem decodeWord_encodeWord (i : Instr) : decodeWord (encodeWord i) = .operation i := by
  cases i with
  | rem d g =>
    have hunit : (encodeWord (.rem d g)).extractLsb' 11 2 = 0 := by
      rw [encodeWord, extractLsb'_append_eq_of_le (by omega)]
      exact extractLsb'_append_eq_left
    have hd : (encodeWord (.rem d g)).extractLsb' 4 7 = d := by
      rw [encodeWord, extractLsb'_append_eq_of_le (by omega)]
      exact extractLsb'_append_eq_right
    have hg : (encodeWord (.rem d g)).extractLsb' 0 4 = g := extractLsb'_append_eq_right
    simp [decodeWord, hunit, hd, hg]
  | enc b =>
    have hunit : (encodeWord (.enc b)).extractLsb' 11 2 = 1 := extractLsb'_append_eq_of_le (by omega)
    have hzero : (encodeWord (.enc b)).extractLsb' 8 3 = 0 := extractLsb'_append_eq_of_le (by omega)
    have hb : (encodeWord (.enc b)).extractLsb' 0 8 = b := extractLsb'_append_eq_right
    simp [decodeWord, hunit, hzero, hb]
  | dec b =>
    have hunit : (encodeWord (.dec b)).extractLsb' 11 2 = 2 := extractLsb'_append_eq_of_le (by omega)
    have hzero : (encodeWord (.dec b)).extractLsb' 8 3 = 0 := extractLsb'_append_eq_of_le (by omega)
    have hb : (encodeWord (.dec b)).extractLsb' 0 8 = b := extractLsb'_append_eq_right
    simp [decodeWord, hunit, hzero, hb]
  | syn k =>
    have hunit : (encodeWord (.syn k)).extractLsb' 11 2 = 3 := extractLsb'_append_eq_of_le (by omega)
    have hzero : (encodeWord (.syn k)).extractLsb' 3 8 = 0 := extractLsb'_append_eq_of_le (by omega)
    have hk : (encodeWord (.syn k)).extractLsb' 0 3 = k := extractLsb'_append_eq_right
    simp [decodeWord, hunit, hzero, hk]

end Sys2Proof

namespace Sys2Proof.Machine

/-- The observation an operation yields, whatever was performed before it (20_memory.md R45). -/
def outcome (i : Instr) : Observation := { operation := i, result := resultByte i }

/-- Performing an operation completes, leaves the sequence alone and adds the operation's outcome. -/
theorem exec_adds_outcome (i : Instr) (s : State) :
    ∃ t : State, exec i s = .next t ∧ t.pending = s.pending ∧ t.observed = s.observed ++ [outcome i] := by
  obtain ⟨u, hexec, hpending, hobserved⟩ := exec_eq_record i s
  exact ⟨_, hexec, hpending, congrArg (· ++ [outcome i]) hobserved⟩

/-- A step whose next word spells an operation performs that operation. -/
theorem step_of_encodeWord {s : State} {i : Instr} {rest : List OpWord} (h : s.pending = encodeWord i :: rest) :
    step s = exec i { s with pending := rest } := by
  simp [step, State.fetch_of_cons s h]

/-- A step that goes on leaves the rest of the run to do. -/
theorem run_succ_of_step {s t : State} (n : Nat) (h : step s = .next t) :
    Host.Core.run core (n + 1) s = Host.Core.run core n t := by
  have hcore : core.step s = .next t := h
  simp only [Host.Core.run, hcore]

/-- A sequence of written operations runs to its end from any state and adds the outcomes of its operations, in
order. -/
theorem run_encoded_adds_outcomes (ops : List Instr) (rest : List OpWord) (s : State)
    (h : s.pending = ops.map encodeWord ++ rest) :
    ∃ t : State, Host.Core.run core ops.length s = .next t ∧ t.pending = rest ∧
      t.observed = s.observed ++ ops.map outcome := by
  induction ops generalizing s with
  | nil => exact ⟨s, rfl, h, by simp⟩
  | cons i ops ih =>
    obtain ⟨u, hexec, hpending, hobserved⟩ := exec_adds_outcome i { s with pending := ops.map encodeWord ++ rest }
    obtain ⟨t, hrun, hrest, houtcomes⟩ := ih u hpending
    refine ⟨t, ?_, hrest, by simp [houtcomes, hobserved]⟩
    rw [List.length_cons, run_succ_of_step _ ((step_of_encodeWord h).trans hexec), hrun]

/-- Outcomes of the same operation have the same result: it is the operation's result byte. -/
theorem outcome_result_eq_of_operation_eq {ops ops' : List Instr} {o o' : Observation} (ho : o ∈ ops.map outcome)
    (ho' : o' ∈ ops'.map outcome) (h : o.operation = o'.operation) : o.result = o'.result := by
  obtain ⟨i, -, rfl⟩ := List.mem_map.mp ho
  obtain ⟨i', -, rfl⟩ := List.mem_map.mp ho'
  exact congrArg resultByte h

end Sys2Proof.Machine

namespace Sys2Proof

open Machine

/-- Settles O42: the outcomes of a run are the outcomes of its operations one by one, so another order of the
operations gives the same outcomes in that order. -/
theorem orderOfOperationsIsUnobservable : Obligations.OrderOfOperationsIsUnobservable := by
  intro ops ops' s hperm
  have hruns (l : List Instr) := run_encoded_adds_outcomes l [] { s with pending := l.map encodeWord } (by simp)
  obtain ⟨t, hrun, -, hobserved⟩ := hruns ops
  obtain ⟨t', hrun', -, hobserved'⟩ := hruns ops'
  exact ⟨t, t', _, _, hrun, hrun', hobserved, hobserved', hperm.map outcome,
    fun _ ho _ ho' => outcome_result_eq_of_operation_eq ho ho'⟩

end Sys2Proof

/-! ### Operation words: the decoder, the encoder and the opcode table agree (30_encoding.md R70 to R73) -/

namespace Sys2Proof

section
variable {w : OpWord}

/-- A word of unit 0 is put together from its dividend and its generator bits. -/
theorem encodeWord_rem_fields (hunit : w.extractLsb' 11 2 = 0) :
    encodeWord (.rem (w.extractLsb' 4 7) (w.extractLsb' 0 4)) = w := by
  have hhigh : 0b00#2 ++ w.extractLsb' 4 7 = w.extractLsb' 4 9 := by
    rw [show 0b00#2 = w.extractLsb' 11 2 from hunit.symm]
    exact BitVec.extractLsb'_append_extractLsb'_eq_extractLsb' rfl
  rw [encodeWord, hhigh]
  exact BitVec.extractLsb'_append_extractLsb'

/-- Bits 12:8 of a word are its unit number and its bits 10:8. -/
theorem unit_append_bits_10_8 (w : OpWord) : w.extractLsb' 11 2 ++ w.extractLsb' 8 3 = w.extractLsb' 8 5 :=
  BitVec.extractLsb'_append_extractLsb'_eq_extractLsb' rfl

/-- Bits 12:3 of a word are its unit number and its bits 10:3. -/
theorem unit_append_bits_10_3 (w : OpWord) : w.extractLsb' 11 2 ++ w.extractLsb' 3 8 = w.extractLsb' 3 10 :=
  BitVec.extractLsb'_append_extractLsb'_eq_extractLsb' rfl

theorem encodeWord_enc_fields (h : w.extractLsb' 8 5 = 0b01000) : encodeWord (.enc (w.extractLsb' 0 8)) = w := by
  rw [encodeWord, show 0b01000#5 = w.extractLsb' 8 5 from h.symm]
  exact BitVec.extractLsb'_append_extractLsb'

theorem encodeWord_dec_fields (h : w.extractLsb' 8 5 = 0b10000) : encodeWord (.dec (w.extractLsb' 0 8)) = w := by
  rw [encodeWord, show 0b10000#5 = w.extractLsb' 8 5 from h.symm]
  exact BitVec.extractLsb'_append_extractLsb'

theorem encodeWord_syn_fields (h : w.extractLsb' 3 10 = 0b1100000000) :
    encodeWord (.syn (w.extractLsb' 0 3)) = w := by
  rw [encodeWord, show 0b1100000000#10 = w.extractLsb' 3 10 from h.symm]
  exact BitVec.extractLsb'_append_extractLsb'

/-- The encoder writes back the word an operation was decoded from. -/
theorem encodeWord_of_decodeWord {i : Instr} (h : decodeWord w = .operation i) : encodeWord i = w := by
  obtain ⟨hunit, hd⟩ | ⟨hunit, hzero, hd⟩ | ⟨hunit, hzero, hd⟩ | ⟨hunit, hzero, hd⟩ | hd := decodeWord_cases w
  · obtain rfl := Decoded.operation.inj (hd.symm.trans h)
    exact encodeWord_rem_fields hunit
  · obtain rfl := Decoded.operation.inj (hd.symm.trans h)
    exact encodeWord_enc_fields (by rw [← unit_append_bits_10_8, hunit, hzero]; rfl)
  · obtain rfl := Decoded.operation.inj (hd.symm.trans h)
    exact encodeWord_dec_fields (by rw [← unit_append_bits_10_8, hunit, hzero]; rfl)
  · obtain rfl := Decoded.operation.inj (hd.symm.trans h)
    exact encodeWord_syn_fields (by rw [← unit_append_bits_10_3, hunit, hzero]; rfl)
  · rw [hd] at h
    cases h

theorem decodeWord_eq_operation_iff {i : Instr} : decodeWord w = .operation i ↔ encodeWord i = w :=
  ⟨encodeWord_of_decodeWord, fun h => h ▸ decodeWord_encodeWord i⟩

/-- A word is either the word of an operation or invalid. -/
theorem encoded_or_invalid (w : OpWord) : (∃ i, encodeWord i = w) ∨ decodeWord w = .invalidOperationWord := by
  cases hd : decodeWord w with
  | operation i => exact .inl ⟨i, encodeWord_of_decodeWord hd⟩
  | invalidOperationWord => exact .inr rfl

/-- The words the decoder refuses, by their bits (R73). -/
theorem decodeWord_eq_invalid_iff_bits :
    decodeWord w = .invalidOperationWord ↔
      ((w.extractLsb' 11 2 = 1 ∨ w.extractLsb' 11 2 = 2) ∧ w.extractLsb' 8 3 ≠ 0) ∨
      (w.extractLsb' 11 2 = 3 ∧ w.extractLsb' 3 8 ≠ 0) := by
  have hunits : ∀ u : BitVec 2, u = 0 ∨ u = 1 ∨ u = 2 ∨ u = 3 := by decide
  obtain hunit | hunit | hunit | hunit := hunits (w.extractLsb' 11 2) <;> simp [decodeWord, hunit]

end

/-- Settles O1: the converse puts a decoded word together again from its unit number, its zero bits and its
operands. -/
theorem decodeAndEncodeAgree : Obligations.DecodeAndEncodeAgree :=
  ⟨decodeWord_encodeWord, fun _ _ => encodeWord_of_decodeWord⟩

/-! #### The rows of the opcode table (R70) -/

/-- A mask of the high `k` bits compares those bits with the pattern's. -/
theorem and_highMask_eq_iff {k n : Nat} (w : BitVec (k + n)) (p : BitVec k) :
    w &&& (BitVec.allOnes k ++ 0#n) = p ++ 0#n ↔ w.extractLsb' n k = p := by
  conv_lhs => rw [← BitVec.extractLsb'_append_extractLsb' (x := w)]
  rw [BitVec.and_append, BitVec.and_allOnes, BitVec.and_zero, BitVec.append_left_inj]

section
variable {w : OpWord}

theorem encodeWord_of_rem_row (h : w &&& 0x1800 = 0x0000) :
    encodeWord (.rem (w.extractLsb' 4 7) (w.extractLsb' 0 4)) = w :=
  encodeWord_rem_fields ((and_highMask_eq_iff (n := 11) w 0b00#2).mp h)

theorem encodeWord_of_enc_row (h : w &&& 0x1F00 = 0x0800) : encodeWord (.enc (w.extractLsb' 0 8)) = w :=
  encodeWord_enc_fields ((and_highMask_eq_iff (n := 8) w 0b01000#5).mp h)

theorem encodeWord_of_dec_row (h : w &&& 0x1F00 = 0x1000) : encodeWord (.dec (w.extractLsb' 0 8)) = w :=
  encodeWord_dec_fields ((and_highMask_eq_iff (n := 8) w 0b10000#5).mp h)

theorem encodeWord_of_syn_row (h : w &&& 0x1FF8 = 0x1800) : encodeWord (.syn (w.extractLsb' 0 3)) = w :=
  encodeWord_syn_fields ((and_highMask_eq_iff (n := 3) w 0b1100000000#10).mp h)

/-- A word that selects a row of the table is the word of an operation. -/
theorem exists_encodeWord_of_selects {r : OpcodeRow} (hr : r ∈ opcodeTable) (h : r.selects w = true) :
    ∃ i, encodeWord i = w := by
  simp only [opcodeTable, List.mem_cons, List.not_mem_nil, or_false] at hr
  rw [OpcodeRow.selects, beq_iff_eq] at h
  obtain rfl | rfl | rfl | rfl := hr
  · exact ⟨_, encodeWord_of_rem_row h⟩
  · exact ⟨_, encodeWord_of_enc_row h⟩
  · exact ⟨_, encodeWord_of_dec_row h⟩
  · exact ⟨_, encodeWord_of_syn_row h⟩

/-- The word of an operation selects exactly its unit's row. -/
theorem filter_selects_encodeWord (i : Instr) :
    opcodeTable.filter (·.selects (encodeWord i)) = opcodeTable.filter (·.unit == i.unit) := by
  cases i with
  | rem d g => exact (Laws.RowMatch.rem d g).2
  | enc b => exact (Laws.RowMatch.enc b).2
  | dec b => exact (Laws.RowMatch.dec b).2
  | syn k => exact (Laws.RowMatch.syn k).2

/-- Each unit has one row. -/
theorem length_filter_unit (u : PortGroup) : (opcodeTable.filter (·.unit == u)).length = 1 := by
  cases u <;> rfl

theorem no_row_iff_not_valid : opcodeTable.filter (·.selects w) = [] ↔ ¬ validWord w = true := by
  simp [validWord]

/-- The valid words are the words of the operations. -/
theorem validWord_iff : validWord w = true ↔ ∃ i, encodeWord i = w := by
  constructor
  · intro h
    obtain ⟨r, hr, hsel⟩ := List.any_eq_true.mp h
    exact exists_encodeWord_of_selects hr hsel
  · rintro ⟨i, rfl⟩
    by_contra hno
    have hone := length_filter_unit i.unit
    rw [← filter_selects_encodeWord, no_row_iff_not_valid.mpr hno] at hone
    simp at hone

theorem decodeWord_eq_invalid_iff_not_valid : decodeWord w = .invalidOperationWord ↔ ¬ validWord w = true := by
  rw [validWord_iff]
  constructor
  · rintro h ⟨i, rfl⟩
    simp at h
  · exact (encoded_or_invalid w).resolve_left

theorem decodeWord_eq_invalid_iff_no_row :
    decodeWord w = .invalidOperationWord ↔ opcodeTable.filter (·.selects w) = [] := by
  rw [decodeWord_eq_invalid_iff_not_valid, no_row_iff_not_valid]

/-- At most one row is selected by any word. -/
theorem length_filter_selects_le_one (w : OpWord) : (opcodeTable.filter (·.selects w)).length ≤ 1 := by
  obtain ⟨i, rfl⟩ | hinvalid := encoded_or_invalid w
  · rw [filter_selects_encodeWord, length_filter_unit]
  · simp [decodeWord_eq_invalid_iff_no_row.mp hinvalid]

end

end Sys2Proof

namespace Sys2Proof.Machine

/-- A zero-extended remainder has bits 7:3 clear (30_encoding.md R71). -/
@[simp] theorem remByte_high_bits (r : Syndrome) : (remByte r).extractLsb' 3 5 = 0 := by
  revert r; decide

/-- A step is refused by name exactly when its first word is invalid. -/
theorem step_refused_iff_invalid {s : State} {w : OpWord} {rest : List OpWord} (h : s.pending = w :: rest) :
    step s = .refused .invalidOperationWord ↔ decodeWord w = .invalidOperationWord := by
  obtain ⟨i, rfl⟩ | hinvalid := encoded_or_invalid w
  · simp [step_of_encodeWord h, exec_eq_drive_sample]
  · simp [step, State.fetch_of_cons s h, hinvalid]

end Sys2Proof.Machine

namespace Sys2Proof

open Machine

/-- Settles O5: a word that selects a row is the word of that row's operation on its operand fields. -/
theorem stepPerformsTheRowTheWordSelects : Obligations.StepPerformsTheRowTheWordSelects := by
  intro s w rest hpending
  have hstep {i : Instr} (hi : encodeWord i = w) : step s = exec i { s with pending := rest } :=
    step_of_encodeWord (hi.symm ▸ hpending)
  exact ⟨fun h => hstep (encodeWord_of_rem_row h), fun h => hstep (encodeWord_of_enc_row h),
    fun h => hstep (encodeWord_of_dec_row h), fun h => hstep (encodeWord_of_syn_row h),
    length_filter_selects_le_one w⟩

/-- Settles O6: a step is refused exactly for an invalid first word, which is a word of no row, and a word with a bit
set that its unit wants clear. -/
theorem invalidWordIsRefusedByName : Obligations.InvalidWordIsRefusedByName := by
  intro s w rest hpending
  rw [step_refused_iff_invalid hpending]
  exact ⟨decodeWord_eq_invalid_iff_no_row, decodeWord_eq_invalid_iff_bits⟩

/-- Settles O3: the worked words are those of the encoder, whose inverse the decoder is; the nearest invalid words have
a bit set that their unit wants clear. -/
theorem workedWordsDecode : Obligations.WorkedWordsDecode := by
  refine ⟨rfl, decodeWord_encodeWord (.rem 0x53 0xB), rfl, decodeWord_encodeWord (.enc 0x0A),
    rfl, decodeWord_encodeWord (.dec 0x52), rfl, decodeWord_encodeWord (.syn 3), ?_, ?_, ?_⟩
  · exact decodeWord_eq_invalid_iff_bits.mpr (by decide)
  · exact decodeWord_eq_invalid_iff_bits.mpr (by decide)
  · exact decodeWord_eq_invalid_iff_bits.mpr (by decide)

/-! #### The result byte (R71) -/

/-- Settles O38: an operation samples the port it has just driven; the last clause performs the word of `ENC 0x0A`. -/
theorem resultByteIsTheSampledPort : Obligations.ResultByteIsTheSampledPort := by
  refine ⟨fun d g s => ⟨_, exec_eq_drive_sample _ s, rfl, ?_⟩, fun b s => ⟨_, exec_eq_drive_sample _ s, rfl⟩,
    fun b s => ⟨_, exec_eq_drive_sample _ s, rfl⟩, fun k s => ⟨_, exec_eq_drive_sample _ s, rfl, ?_⟩, ?_⟩
  · exact remByte_high_bits _
  · exact codewordByte_getLsbD_seven _
  · intro s rest hpending
    obtain ⟨t, hexec, -, hobserved⟩ := exec_adds_outcome (.enc 0x0A) { s with pending := rest }
    have houtcome : outcome (.enc 0x0A) = ⟨.enc 0x0A, 0x53⟩ := by decide
    exact ⟨t, (step_of_encodeWord hpending).trans hexec, houtcome ▸ hobserved⟩

end Sys2Proof

/-! #### How many words there are (R72) -/

namespace Sys2Proof

theorem encodeWord_injective : Function.Injective encodeWord := fun i j h =>
  Decoded.operation.inj ((decodeWord_encodeWord i).symm.trans (h ▸ decodeWord_encodeWord j))

theorem spells_iff {u : PortGroup} {w : OpWord} : spells u w = true ↔ ∃ i, i.unit = u ∧ encodeWord i = w := by
  obtain ⟨i, rfl⟩ | hinvalid := encoded_or_invalid w
  · simp [spells, encodeWord_injective.eq_iff]
  · have hnone (i : Instr) : encodeWord i ≠ w := by
      rintro rfl
      simp at hinvalid
    simp [spells, hinvalid, hnone]

/-- Counting `m` rows of `n` numbers is counting the numbers below `n * m`. -/
theorem sum_countP_rows (m n : Nat) (q : Nat → Bool) :
    ((List.range m).map fun h => (List.range n).countP fun l => q (n * h + l)).sum = (List.range (n * m)).countP q := by
  induction m with
  | zero => rfl
  | succ m ih => simp [List.range_succ, Nat.mul_succ, List.range_add, List.countP_map, ih, Function.comp_def]

theorem countP_range_eq_card (n : Nat) (q : Nat → Bool) :
    (List.range n).countP q = ((Finset.range n).filter (q · = true)).card := by
  rw [List.countP_eq_length_filter, Finset.card_def, Finset.filter_val]
  simp [Multiset.range]

/-- The count by rows is the number of words with the property. -/
theorem countWords_eq_card (p : OpWord → Bool) : countWords p = (Finset.univ.filter (p · = true)).card := by
  have hrange : countWords p = ((Finset.range (128 * 64)).filter fun n => p (BitVec.ofNat 13 n) = true).card := by
    rw [countWords, sum_countP_rows 64 128 fun n => p (BitVec.ofNat 13 n), countP_range_eq_card]
  rw [hrange]
  refine Finset.card_nbij' (BitVec.ofNat 13) BitVec.toNat ?_ ?_ ?_ ?_
  · simp [Set.MapsTo]
  · intro w hw
    simpa [w.isLt] using hw
  · simp +contextual [Set.LeftInvOn]
  · simp [Set.LeftInvOn, Set.RightInvOn]

/-- Words that are the different values of a function on a finite type are as many as its arguments. -/
theorem countWords_eq_of_injective {α : Type} [Fintype α] {p : OpWord → Bool} {f : α → OpWord}
    (hf : Function.Injective f) (hp : ∀ w, p w = true ↔ ∃ a, f a = w) : countWords p = Fintype.card α := by
  have himage : Finset.univ.filter (p · = true) = Finset.univ.image f := by
    ext w
    simp [hp]
  rw [countWords_eq_card, himage, Finset.card_image_of_injective _ hf, Finset.card_univ]

theorem card_bitVec (n : Nat) : Fintype.card (BitVec n) = 2 ^ n :=
  FinEnum.card_eq_fintypeCard.symm.trans (FinEnum.card_bitVec n)

/-- The operations, unit by unit, as the values of their operands. -/
def Instr.operandsEquiv : (Codeword × Generator) ⊕ Byte ⊕ Byte ⊕ Syndrome ≃ Instr where
  toFun
    | .inl (d, g) => .rem d g
    | .inr (.inl b) => .enc b
    | .inr (.inr (.inl b)) => .dec b
    | .inr (.inr (.inr k)) => .syn k
  invFun
    | .rem d g => .inl (d, g)
    | .enc b => .inr (.inl b)
    | .dec b => .inr (.inr (.inl b))
    | .syn k => .inr (.inr (.inr k))
  left_inv := by rintro (⟨d, g⟩ | b | b | k) <;> rfl
  right_inv := by rintro (⟨d, g⟩ | b | b | k) <;> rfl

theorem countWords_validWord : countWords validWord = 2568 := by
  have hcard := countWords_eq_of_injective (p := validWord) (encodeWord_injective.comp Instr.operandsEquiv.injective)
    fun w => by rw [validWord_iff, Instr.operandsEquiv.surjective.exists]; rfl
  simpa [card_bitVec] using hcard

/-- A unit has as many words as its operands have values. -/
theorem countWords_spells {α : Type} [Fintype α] {u : PortGroup} {f : α → Instr} (hf : Function.Injective f)
    (hunit : ∀ i : Instr, i.unit = u ↔ ∃ a, f a = i) : countWords (spells u) = Fintype.card α :=
  countWords_eq_of_injective (encodeWord_injective.comp hf) fun w => by
    simp only [spells_iff, hunit, Function.comp_apply]
    exact ⟨fun ⟨_, ⟨a, ha⟩, hw⟩ => ⟨a, ha ▸ hw⟩, fun ⟨a, hw⟩ => ⟨f a, ⟨a, rfl⟩, hw⟩⟩

theorem countWords_spells_rem : countWords (spells .rem) = 2048 := by
  have hcard := countWords_spells (u := .rem) (f := fun x : Codeword × Generator => .rem x.1 x.2)
    (fun x y h => by simpa [Prod.ext_iff] using h) fun i => by cases i <;> simp [Instr.unit]
  simpa [card_bitVec] using hcard

theorem countWords_spells_enc : countWords (spells .enc) = 256 := by
  have hcard := countWords_spells (u := .enc) (f := .enc) (fun _ _ => Instr.enc.inj) fun i => by
    cases i <;> simp [Instr.unit]
  simpa [card_bitVec] using hcard

theorem countWords_spells_dec : countWords (spells .dec) = 256 := by
  have hcard := countWords_spells (u := .dec) (f := .dec) (fun _ _ => Instr.dec.inj) fun i => by
    cases i <;> simp [Instr.unit]
  simpa [card_bitVec] using hcard

theorem countWords_spells_syn : countWords (spells .syn) = 8 := by
  have hcard := countWords_spells (u := .syn) (f := .syn) (fun _ _ => Instr.syn.inj) fun i => by
    cases i <;> simp [Instr.unit]
  simpa [card_bitVec] using hcard

theorem countWords_add_not (p : OpWord → Bool) : countWords p + countWords (!p ·) = 8192 := by
  have hsplit := Finset.card_filter_add_card_filter_not (s := (Finset.univ : Finset OpWord)) (p · = true)
  simpa [countWords_eq_card, card_bitVec] using hsplit

/-- Settles O2: each unit has as many words as operand values, the valid words are those of all units together, and the
other words are invalid. -/
theorem operationWordCounts : Obligations.OperationWordCounts := by
  refine ⟨countWords_spells_rem, countWords_spells_enc, countWords_spells_dec, countWords_spells_syn,
    countWords_validWord, ?_⟩
  have hinvalid : (fun w => decodeWord w == .invalidOperationWord) = (!validWord ·) := by
    funext w
    rw [Bool.eq_iff_iff]
    simp [decodeWord_eq_invalid_iff_not_valid]
  have htotal := countWords_add_not validWord
  rw [countWords_validWord] at htotal
  rw [hinvalid]
  omega

end Sys2Proof

/-! ### Written operations are read back (30_encoding.md R76, R77) -/

namespace Sys2Proof.Machine

/-! #### Numbers -/

theorem digitValue_digitChar {d : Nat} (hd : d < 16) : digitValue d.digitChar = some d := by
  revert d; decide

theorem readDigits_append (base acc : Nat) (xs ys : List Char) :
    readDigits base acc (xs ++ ys) = (readDigits base acc xs).bind fun v => readDigits base v ys := by
  induction xs generalizing acc with
  | nil => rfl
  | cons c xs ih =>
    simp only [List.cons_append, readDigits]
    cases digitValue c with
    | none => rfl
    | some v => by_cases hv : v < base <;> simp [hv, ih]

theorem readDigits_digitChar {base d : Nat} (acc : Nat) (hbase : base ≤ 16) (hd : d < base) :
    readDigits base acc [d.digitChar] = some (acc * base + d) := by
  simp [readDigits, digitValue_digitChar (hd.trans_le hbase), hd]

/-- The digits of a number are read back as the number, in every base whose digits the reader knows. -/
theorem readDigits_toDigits {base : Nat} (hbase : 1 < base) (hbase' : base ≤ 16) (n : Nat) :
    readDigits base 0 (Nat.toDigits base n) = some n := by
  induction n using Nat.strong_induction_on with
  | _ n ih =>
    rw [Nat.toDigits_eq_if hbase]
    split
    · next hn => simp [readDigits_digitChar 0 hbase' hn]
    · next hn =>
      have hlt : n / base < n := Nat.div_lt_self (by omega) hbase
      rw [readDigits_append, ih _ hlt, Option.bind_some, readDigits_digitChar _ hbase' (Nat.mod_lt _ (by omega)),
        Nat.div_add_mod']

theorem exists_digitChar_of_mem_toDigits {base n : Nat} (hbase : 1 < base) {c : Char}
    (hc : c ∈ Nat.toDigits base n) : ∃ d : Nat, d.digitChar = c := by
  induction n using Nat.strong_induction_on with
  | _ n ih =>
    rw [Nat.toDigits_eq_if hbase] at hc
    split at hc
    · exact ⟨n, (List.mem_singleton.mp hc).symm⟩
    · next hn =>
      obtain hc | hc := List.mem_append.mp hc
      · exact ih _ (Nat.div_lt_self (by omega) hbase) hc
      · exact ⟨_, (List.mem_singleton.mp hc).symm⟩

/-- Decimal digits begin with neither `0x` nor `0b`, so they are read in base 10. -/
theorem readNumber_of_isDigit {cs : List Char} (hne : cs ≠ []) (hdigits : ∀ c ∈ cs, c.isDigit = true) :
    readNumber cs = readDigits 10 0 cs := by
  unfold readNumber
  split
  · exact absurd rfl hne
  · exact absurd (hdigits 'x' (by simp)) (by decide)
  · exact absurd (hdigits 'b' (by simp)) (by decide)
  · rfl

/-- A written number is read back, in each of its forms. -/
theorem readNumber_writtenNumber (n : Nat) (f : NumberForm) : readNumber (writtenNumber n f) = some n := by
  cases f with
  | decimal =>
    rw [writtenNumber, readNumber_of_isDigit Nat.toDigits_ne_nil fun _ =>
      Nat.isDigit_of_mem_toDigits (by omega) (by omega), readDigits_toDigits (by omega) (by omega)]
  | hexadecimal =>
    obtain ⟨c, cs, hcs⟩ := List.exists_cons_of_ne_nil (Nat.toDigits_ne_nil (n := n) (b := 16))
    rw [writtenNumber, hcs, readNumber, ← hcs, readDigits_toDigits (by omega) (by omega)]
  | binary =>
    obtain ⟨c, cs, hcs⟩ := List.exists_cons_of_ne_nil (Nat.toDigits_ne_nil (n := n) (b := 2))
    rw [writtenNumber, hcs, readNumber, ← hcs, readDigits_toDigits (by omega) (by omega)]

theorem writtenNumber_ne_nil (n : Nat) (f : NumberForm) : writtenNumber n f ≠ [] := by
  cases f with
  | decimal => exact Nat.toDigits_ne_nil
  | hexadecimal => exact List.cons_ne_nil _ _
  | binary => exact List.cons_ne_nil _ _

theorem digitChar_ne_separator {c : Char} (hc : c = ' ' ∨ c = ',' ∨ c = ';') (d : Nat) : d.digitChar ≠ c := by
  obtain rfl | rfl | rfl := hc <;> exact Nat.digitChar_ne _ (by decide)

/-- A written number holds none of the characters that end it: blank, comma, semicolon. -/
theorem not_mem_writtenNumber {c : Char} (hc : c = ' ' ∨ c = ',' ∨ c = ';') (n : Nat) (f : NumberForm) :
    c ∉ writtenNumber n f := by
  obtain ⟨h0, hx, hb⟩ : c ≠ '0' ∧ c ≠ 'x' ∧ c ≠ 'b' := by
    obtain rfl | rfl | rfl := hc <;> decide
  have hdigits {base : Nat} (hbase : 1 < base) : c ∉ Nat.toDigits base n := fun hmem => by
    obtain ⟨d, hd⟩ := exists_digitChar_of_mem_toDigits hbase hmem
    exact digitChar_ne_separator hc d hd
  cases f with
  | decimal => exact hdigits (by omega)
  | hexadecimal => simp [writtenNumber, h0, hx, hdigits]
  | binary => simp [writtenNumber, h0, hb, hdigits]

/-! #### Blanks and operands -/

theorem trimBlanks_cons_blank (cs : List Char) : trimBlanks (' ' :: cs) = trimBlanks cs := by
  simp [trimBlanks]

theorem trimBlanks_eq_self {cs : List Char} (hhead : cs.head? ≠ some ' ') (hlast : cs.getLast? ≠ some ' ') :
    trimBlanks cs = cs := by
  rw [trimBlanks, List.dropWhile_beq_eq_self_of_head?_ne hhead, List.dropWhile_beq_eq_self_of_head?_ne (by simpa),
    List.reverse_reverse]

theorem trimBlanks_concat_blank {cs : List Char} (hne : cs ≠ []) (hhead : cs.head? ≠ some ' ') :
    trimBlanks (cs ++ [' ']) = trimBlanks cs := by
  have hhead' : (cs ++ [' ']).head? ≠ some ' ' := by rwa [List.head?_append_of_ne_nil _ hne]
  simp [trimBlanks, List.dropWhile_beq_eq_self_of_head?_ne hhead, List.dropWhile_beq_eq_self_of_head?_ne hhead']

theorem head?_writtenNumber_ne (n : Nat) (f : NumberForm) : (writtenNumber n f).head? ≠ some ' ' :=
  fun h => not_mem_writtenNumber (by simp) n f (List.mem_of_head? h)

theorem getLast?_writtenNumber_ne (n : Nat) (f : NumberForm) : (writtenNumber n f).getLast? ≠ some ' ' :=
  fun h => not_mem_writtenNumber (by simp) n f (List.mem_of_getLast? h)

/-- An operand is read back from the number written after a blank. -/
theorem readOperand_writtenNumber {w : Nat} (v : BitVec w) (f : NumberForm) :
    readOperand w (' ' :: writtenNumber v.toNat f) = some v := by
  rw [readOperand, trimBlanks_cons_blank,
    trimBlanks_eq_self (head?_writtenNumber_ne _ f) (getLast?_writtenNumber_ne _ f), readNumber_writtenNumber]
  simp [v.isLt]

/-! #### Lines -/

/-- The characters of a line that neither the trimming of blanks nor the cutting of a comment shortens. -/
structure IsLineText (cs : List Char) : Prop where
  ne_nil  : cs ≠ []
  head    : cs.head? ≠ some ' '
  last    : cs.getLast? ≠ some ' '
  no_semi : ';' ∉ cs

theorem IsLineText.takeWhile_append {cs : List Char} (h : IsLineText cs) (ds : List Char) :
    (cs ++ ds).takeWhile (· != ';') = cs ++ ds.takeWhile (· != ';') :=
  List.takeWhile_append_of_pos fun c hc => by
    have hne : c ≠ ';' := fun heq => h.no_semi (heq ▸ hc)
    simpa using hne

/-- The text of a line, once its comment and its blanks are off, is what is read. -/
theorem IsLineText.trimmed {cs : List Char} (h : IsLineText cs) : trimBlanks (cs.takeWhile (· != ';')) = cs := by
  have htake := h.takeWhile_append []
  rw [List.append_nil, List.takeWhile_nil, List.append_nil] at htake
  rw [htake, trimBlanks_eq_self h.head h.last]

theorem IsLineText.trimmed_comment {cs : List Char} (h : IsLineText cs) (comment : List Char) :
    trimBlanks ((cs ++ ' ' :: ';' :: comment).takeWhile (· != ';')) = cs := by
  rw [h.takeWhile_append, show (' ' :: ';' :: comment).takeWhile (· != ';') = [' '] from rfl,
    trimBlanks_concat_blank h.ne_nil h.head, trimBlanks_eq_self h.head h.last]

/-- A comment does not change what is read. -/
theorem IsLineText.readChars_comment {cs : List Char} (h : IsLineText cs) (comment : List Char) :
    readChars (cs ++ ' ' :: ';' :: comment) = readChars cs := by
  rw [readChars, readChars, h.trimmed, h.trimmed_comment]

/-- A line that ends in a written number, does not begin with a blank and holds no semicolon is such a text. -/
theorem isLineText_append_writtenNumber {c : Char} {cs : List Char} (hc : c ≠ ' ') (hsemi : ';' ∉ c :: cs) (n : Nat)
    (f : NumberForm) : IsLineText (c :: cs ++ writtenNumber n f) where
  ne_nil := by simp
  head := by simpa using hc
  last := by
    rw [List.getLast?_append_of_ne_nil _ (writtenNumber_ne_nil n f)]
    exact getLast?_writtenNumber_ne n f
  no_semi := by
    rw [List.mem_append]
    exact fun h => h.elim hsemi (not_mem_writtenNumber (by simp) n f)

theorem isLineText_writtenChars (f : NumberForm) (i : Instr) : IsLineText (writtenChars f i) := by
  cases i with
  | rem d g =>
    have hline : writtenChars f (.rem d g) =
        'R' :: (['E', 'M', ' '] ++ writtenNumber d.toNat f ++ [',', ' ']) ++ writtenNumber g.toNat f := by
      simp [writtenChars, mnemonic, writtenOperands]
    rw [hline]
    exact isLineText_append_writtenNumber (by decide) (by simp [not_mem_writtenNumber]) _ f
  | enc b => exact isLineText_append_writtenNumber (cs := ['N', 'C', ' ']) (by decide) (by decide) _ f
  | dec b => exact isLineText_append_writtenNumber (cs := ['E', 'C', ' ']) (by decide) (by decide) _ f
  | syn k => exact isLineText_append_writtenNumber (cs := ['Y', 'N', ' ']) (by decide) (by decide) _ f

/-- The dividend and the generator of `REM d, g` stand before and after the comma. -/
theorem split_at_comma (m n : Nat) (f : NumberForm) :
    (' ' :: (writtenNumber m f ++ ',' :: ' ' :: writtenNumber n f)).takeWhile (· != ',') = ' ' :: writtenNumber m f ∧
    (' ' :: (writtenNumber m f ++ ',' :: ' ' :: writtenNumber n f)).dropWhile (· != ',') =
      ',' :: ' ' :: writtenNumber n f := by
  have hno : ∀ c ∈ ' ' :: writtenNumber m f, (c != ',') = true := by
    intro c hc
    have hne : c ≠ ',' := by
      rintro rfl
      simp [not_mem_writtenNumber] at hc
    simpa using hne
  rw [← List.cons_append]
  constructor
  · rw [List.takeWhile_append_of_pos hno]
    simp
  · rw [List.dropWhile_append_of_pos hno]
    simp

/-- A written operation is read back. -/
theorem readChars_writtenChars (f : NumberForm) (i : Instr) : readChars (writtenChars f i) = some i := by
  rw [readChars, (isLineText_writtenChars f i).trimmed]
  cases i with
  | rem d g =>
    obtain ⟨htake, hdrop⟩ := split_at_comma d.toNat g.toNat f
    simp [writtenChars, mnemonic, writtenOperands, htake, hdrop, readOperand_writtenNumber]
  | enc b => simp [writtenChars, mnemonic, writtenOperands, readOperand_writtenNumber]
  | dec b => simp [writtenChars, mnemonic, writtenOperands, readOperand_writtenNumber]
  | syn k => simp [writtenChars, mnemonic, writtenOperands, readOperand_writtenNumber]

theorem isLineText_synd (f : NumberForm) (c : Codeword) :
    IsLineText (['S', 'Y', 'N', 'D', ' '] ++ writtenNumber c.toNat f) :=
  isLineText_append_writtenNumber (by decide) (by decide) _ f

/-- `SYND c` is read as the operation it expands to (R77). -/
theorem readChars_synd (f : NumberForm) (c : Codeword) :
    readChars (['S', 'Y', 'N', 'D', ' '] ++ writtenNumber c.toNat f) = some (synd c) := by
  rw [readChars, (isLineText_synd f c).trimmed]
  simp [readOperand_writtenNumber]

/-- A line of text that spells an operation is read as it with and without a comment. -/
theorem IsLineText.readOperation {cs : List Char} (h : IsLineText cs) {i : Instr} (hread : readChars cs = some i)
    (comment : String) :
    readOperation (String.ofList cs) = some i ∧ readOperation (String.ofList cs ++ " ;" ++ comment) = some i := by
  have hchars : (String.ofList cs ++ " ;" ++ comment).toList = cs ++ ' ' :: ';' :: comment.toList := by simp
  rw [Machine.readOperation, Machine.readOperation, String.toList_ofList, hchars, h.readChars_comment]
  exact ⟨hread, hread⟩

end Sys2Proof.Machine

namespace Sys2Proof

open Machine

/-- Settles O49: written numbers hold no blank, comma or semicolon and are read back digit by digit, so a line falls
into its mnemonic and its operands again, and a comment is cut off. -/
theorem writtenOperationsReadBack : Obligations.WrittenOperationsReadBack := by
  constructor
  · intro f i comment
    exact (isLineText_writtenChars f i).readOperation (readChars_writtenChars f i) comment
  · intro f c comment
    obtain ⟨hplain, hcomment⟩ := (isLineText_synd f c).readOperation (readChars_synd f c) comment
    exact ⟨hplain, hcomment, rfl⟩

end Sys2Proof

/-! ### The divider: its stages, and what `REM` does with them (40_remainder.md) -/

namespace Sys2Proof.Machine

/-! #### A stage bit by bit (R92) -/

/-- A shift by at most 3 moves every bit of the generator up and drops none. -/
theorem shiftedGenerator_getLsbD {n : Nat} (hn : n ≤ 3) (g : Generator) (i : Nat) :
    (g.setWidth 7 <<< n).getLsbD i = (decide (n ≤ i) && g.getLsbD (i - n)) := by
  rw [BitVec.getLsbD_shiftLeft, BitVec.getLsbD_setWidth]
  obtain hi | hi := Nat.lt_or_ge i 7
  · simp [hi, show i - n < 7 by omega, ← decide_not]
  · simp [BitVec.getLsbD_of_ge g (i - n) (by omega)]

/-- A stage adds the shifted generator as often as the examined bit is set. -/
theorem divStage_getLsbD (k n : Nat) (g : Generator) (d : Codeword) (i : Nat) :
    (divStage k n g d).getLsbD i = (d.getLsbD i ^^ (d.getLsbD k && (g.setWidth 7 <<< n).getLsbD i)) := by
  cases hk : d.getLsbD k with
  | false => simp [divStage_of_clear hk]
  | true => simp [divStage_of_set hk]

/-! #### Linearity (R96) -/

theorem divStage_xor (k n : Nat) (g : Generator) (a b : Codeword) :
    divStage k n g (a ^^^ b) = divStage k n g a ^^^ divStage k n g b := by
  apply BitVec.eq_of_getLsbD_eq
  intro i _
  simp only [divStage_getLsbD, BitVec.getLsbD_xor, Bool.and_xor_distrib_right]
  rw [Bool.xor_assoc, Bool.xor_left_comm (b.getLsbD i), ← Bool.xor_assoc]

/-- A chain of linear stages is linear. -/
theorem rem_xor (a b : Codeword) (g : Generator) : rem (a ^^^ b) g = rem a g ^^^ rem b g := by
  simp only [rem, remD4, remD3, remD2, remD1, divStage_xor, BitVec.extractLsb'_xor]

@[simp] theorem rem_zero (g : Generator) : rem 0#7 g = 0#3 := by
  change rem 0 g = 0
  rw [rem, remD4, remD3, remD2, remD1, divStage_zero, divStage_zero, divStage_zero, divStage_zero]
  rfl

/-! #### A dividend as a sum of powers of x (R95) -/

theorem oneBit_getLsbD {p : Nat} (hp : p < 7) (i : Nat) : (oneBit p).getLsbD i = decide (p = i) := by
  rw [oneBit, ← BitVec.twoPow_eq, BitVec.getLsbD_twoPow]
  simp [hp]

/-- The powers of x below `n` that a dividend holds sum to its low `n` bits. -/
theorem foldl_oneBit_getLsbD (d : Codeword) (n i : Nat) :
    (((List.range n).filter (d.getLsbD ·)).foldl (fun c p => c ^^^ oneBit p) 0).getLsbD i =
      (decide (i < n) && d.getLsbD i) := by
  induction n with
  | zero => simp
  | succ n ih =>
    rw [List.foldl_filter] at ih ⊢
    rw [List.range_succ, List.foldl_append, List.foldl_cons, List.foldl_nil]
    have hsucc (hne : i ≠ n) : decide (i < n + 1) = decide (i < n) := decide_eq_decide.mpr (by omega)
    cases hd : d.getLsbD n with
    | false =>
      rw [if_neg Bool.false_ne_true, ih]
      obtain rfl | hne := eq_or_ne i n
      · rw [hd, Bool.and_false, Bool.and_false]
      · rw [hsucc hne]
    | true =>
      rw [if_pos rfl, BitVec.getLsbD_xor, ih, oneBit_getLsbD (BitVec.lt_of_getLsbD hd)]
      obtain rfl | hne := eq_or_ne i n
      · simp [hd]
      · rw [hsucc hne, decide_eq_false hne.symm, Bool.xor_false]

theorem foldl_oneBit (d : Codeword) :
    ((List.range 7).filter (d.getLsbD ·)).foldl (fun c p => c ^^^ oneBit p) 0 = d := by
  apply BitVec.eq_of_getLsbD_eq
  intro i hi
  rw [foldl_oneBit_getLsbD]
  simp [hi]

/-- The remainder is the sum of the remainders of the dividend's powers of x, for every generator. -/
theorem rem_eq_foldl (d : Codeword) (g : Generator) :
    rem d g = ((List.range 7).filter (d.getLsbD ·)).foldl (fun r p => r ^^^ rem (oneBit p) g) 0 := by
  have hzero : rem 0 g = 0 := rem_zero g
  conv_lhs => rw [← foldl_oneBit d]
  rw [← hzero]
  exact (List.foldl_hom (rem · g) fun c p => (rem_xor c (oneBit p) g).symm).symm

/-- A bit of the remainder is the parity of the dividend's bits at the powers of x whose remainder has it. -/
theorem rem_getLsbD (d : Codeword) (g : Generator) (i : Nat) :
    (rem d g).getLsbD i =
      (List.range 7).foldl (fun v p => v ^^ (d.getLsbD p && (rem (oneBit p) g).getLsbD i)) false := by
  have hzero : (0 : Syndrome).getLsbD i = false := BitVec.getLsbD_zero
  rw [rem_eq_foldl, List.foldl_filter, ← hzero]
  refine (List.foldl_hom (fun r : Syndrome => r.getLsbD i) fun r p => ?_).symm
  cases d.getLsbD p <;> simp

/-- The table of R95. -/
theorem rem_oneBit_gen : (List.range 7).map (fun p => rem (oneBit p) gen) = [1, 2, 4, 3, 6, 7, 5] := by decide

/-- A bit of the remainder by `GEN`, with the table's entries. -/
theorem rem_gen_getLsbD (d : Codeword) (i : Nat) :
    (rem d gen).getLsbD i =
      (d.getLsbD 0 && (1#3).getLsbD i ^^ d.getLsbD 1 && (2#3).getLsbD i ^^ d.getLsbD 2 && (4#3).getLsbD i ^^
        d.getLsbD 3 && (3#3).getLsbD i ^^ d.getLsbD 4 && (6#3).getLsbD i ^^ d.getLsbD 5 && (7#3).getLsbD i ^^
        d.getLsbD 6 && (5#3).getLsbD i) := by
  obtain ⟨h0, h1, h2, h3, h4, h5, h6⟩ : rem (oneBit 0) gen = 1 ∧ rem (oneBit 1) gen = 2 ∧ rem (oneBit 2) gen = 4 ∧
      rem (oneBit 3) gen = 3 ∧ rem (oneBit 4) gen = 6 ∧ rem (oneBit 5) gen = 7 ∧ rem (oneBit 6) gen = 5 := by
    simpa [List.range_succ] using rem_oneBit_gen
  rw [rem_getLsbD]
  simp [List.range_succ, h0, h1, h2, h3, h4, h5, h6]

/-! #### The bits a stage clears or leaves (R94, R97) -/

/-- No bit from `k` up is set: as a polynomial, the degree is below `k`. -/
def ClearFrom (k : Nat) (d : Codeword) : Prop := ∀ i, k ≤ i → d.getLsbD i = false

/-- As the rules write it: `d[6:k] = 0`. -/
theorem clearFrom_iff {k n : Nat} (hk : k + n = 7) (d : Codeword) : ClearFrom k d ↔ d.extractLsb' k n = 0 := by
  constructor
  · intro h
    apply BitVec.eq_of_getLsbD_eq
    intro i hi
    simp [h (k + i) (Nat.le_add_right k i)]
  · intro h i hi
    have hbit := congrArg (·.getLsbD (i - k)) h
    obtain hi7 | hi7 := Nat.lt_or_ge i 7
    · simpa [hi, show i - k < n by omega] using hbit
    · exact BitVec.getLsbD_of_ge d i hi7

theorem clearFrom_seven (d : Codeword) : ClearFrom 7 d := BitVec.getLsbD_of_ge d

section
variable {n : Nat} {g : Generator} {d : Codeword}

/-- With `g[3] = 1` the stage at bit `n + 3` clears it and touches no higher bit. -/
theorem divStage_clears (hn : n ≤ 3) (hg : g.getLsbD 3 = true) (hd : ClearFrom (n + 4) d) :
    ClearFrom (n + 3) (divStage (n + 3) n g d) := by
  intro i hi
  rw [divStage_getLsbD, shiftedGenerator_getLsbD hn]
  obtain rfl | hlt := Nat.eq_or_lt_of_le hi
  · simp [hg]
  · simp [hd i hlt, BitVec.getLsbD_of_ge g (i - n) (by omega)]

/-- With `g[3] = 0` the stage at bit `n + 3` leaves it and every higher bit. -/
theorem divStage_leaves (hn : n ≤ 3) (hg : g.getLsbD 3 = false) {i : Nat} (hi : n + 3 ≤ i) :
    (divStage (n + 3) n g d).getLsbD i = d.getLsbD i := by
  rw [divStage_getLsbD, shiftedGenerator_getLsbD hn]
  obtain rfl | hlt := Nat.eq_or_lt_of_le hi
  · rw [Nat.add_sub_cancel_left, hg]
    simp
  · simp [BitVec.getLsbD_of_ge g (i - n) (by omega)]

/-- With bits 6:3 clear no stage fires. -/
theorem divStage_of_clearFrom (h : ClearFrom 3 d) : divStage (n + 3) n g d = d :=
  divStage_of_clear (h _ (by omega))

/-- With `g[3] = 0` bits 6:3 are clear after a stage only if they were before: the examined bit is as it was, so the
stage has not fired. -/
theorem clearFrom_divStage_iff (hn : n ≤ 3) (hg : g.getLsbD 3 = false) :
    ClearFrom 3 (divStage (n + 3) n g d) ↔ ClearFrom 3 d := by
  constructor
  · intro h
    have hexamined : d.getLsbD (n + 3) = false := (divStage_leaves hn hg le_rfl).symm.trans (h _ (by omega))
    rwa [divStage_of_clear hexamined] at h
  · intro h
    rwa [divStage_of_clearFrom h]

end

section
variable {d : Codeword} {g : Generator}

theorem remD1_clears (hg : g.getLsbD 3 = true) : ClearFrom 6 (remD1 d g) :=
  divStage_clears (by decide) hg (clearFrom_seven d)

theorem remD2_clears (hg : g.getLsbD 3 = true) : ClearFrom 5 (remD2 d g) :=
  divStage_clears (by decide) hg (remD1_clears hg)

theorem remD3_clears (hg : g.getLsbD 3 = true) : ClearFrom 4 (remD3 d g) :=
  divStage_clears (by decide) hg (remD2_clears hg)

theorem remD4_clears (hg : g.getLsbD 3 = true) : ClearFrom 3 (remD4 d g) :=
  divStage_clears (by decide) hg (remD3_clears hg)

/-- With bits 6:3 clear the dividend is left as it is (R98). -/
theorem remD4_of_clearFrom (h : ClearFrom 3 d) : remD4 d g = d := by
  rw [remD4, remD3, remD2, remD1, divStage_of_clearFrom h]
  rw [divStage_of_clearFrom h, divStage_of_clearFrom h, divStage_of_clearFrom h]

/-- With `g[3] = 0` the four stages clear bits 6:3 only where they were clear (R97). -/
theorem clearFrom_remD4_iff (hg : g.getLsbD 3 = false) : ClearFrom 3 (remD4 d g) ↔ ClearFrom 3 d :=
  calc ClearFrom 3 (remD4 d g)
    _ ↔ ClearFrom 3 (remD3 d g) := clearFrom_divStage_iff (by decide) hg
    _ ↔ ClearFrom 3 (remD2 d g) := clearFrom_divStage_iff (by decide) hg
    _ ↔ ClearFrom 3 (remD1 d g) := clearFrom_divStage_iff (by decide) hg
    _ ↔ ClearFrom 3 d := clearFrom_divStage_iff (by decide) hg

end

/-- For each generator with `g[3] = 0`, 120 of the 128 dividends leave a bit of `d4[6:3]` set (R97). -/
theorem countP_remD4_high_bits {g : Generator} (hg : g.getLsbD 3 = false) :
    (List.range 128).countP (fun n => (remD4 (BitVec.ofNat 7 n) g).extractLsb' 3 4 != 0) = 120 := by
  have hsame (d : Codeword) : ((remD4 d g).extractLsb' 3 4 != 0) = (d.extractLsb' 3 4 != 0) := by
    rw [Bool.eq_iff_iff, bne_iff_ne, bne_iff_ne, ne_eq, ne_eq, ← clearFrom_iff rfl, ← clearFrom_iff rfl,
      clearFrom_remD4_iff hg]
  simp only [hsame]
  decide +kernel

/-! #### The operation (R92) -/

/-- The model's `d4` is that of R92, for every generator. -/
theorem remD4_eq_longDivision (d : Codeword) (g : Generator) : remD4 d g = longDivision d g := by
  simp [remD4, remD3, remD2, remD1, divStage, longDivision]

/-- `REM` drives its two ports and writes down the remainder, zero-extended; it changes nothing else. -/
theorem exec_rem (d : Codeword) (g : Generator) (s : State) :
    exec (.rem d g) s = .next { s with
      remDividend := d, remGenerator := g
      observed := s.observed ++ [⟨.rem d g, (rem d g).setWidth 8⟩] } := rfl

theorem exec_rem_longDivision (d : Codeword) (g : Generator) (s : State) :
    exec (.rem d g) s = .next { s with
      remDividend := d, remGenerator := g
      observed := s.observed ++ [⟨.rem d g, ((longDivision d g).extractLsb' 0 3).setWidth 8⟩] } := by
  rw [exec_rem, rem, remD4_eq_longDivision]

/-- Generator 0: every stage XORs with zero (R97). -/
theorem rem_by_zero (d : Codeword) : rem d 0 = d.extractLsb' 0 3 := by
  have hstage (k n : Nat) (c : Codeword) : divStage k n 0 c = c := by simp [divStage]
  simp only [rem, remD4, remD3, remD2, remD1, hstage]

/-! #### Corner cases (R98) -/

theorem rem_of_high_bits_clear {d : Codeword} (g : Generator) (h : d.extractLsb' 3 4 = 0) :
    rem d g = d.extractLsb' 0 3 := by
  rw [rem, remD4_of_clearFrom ((clearFrom_iff rfl d).mpr h)]

section
variable {g : Generator} (hg : g.getLsbD 3 = true)
include hg

/-- With `g[3] = 1` a stage cancels its own shifted generator. -/
theorem divStage_shiftedGenerator {n : Nat} (hn : n ≤ 3) : divStage (n + 3) n g (g.setWidth 7 <<< n) = 0 := by
  have hset : (g.setWidth 7 <<< n).getLsbD (n + 3) = true := by
    rw [shiftedGenerator_getLsbD hn, Nat.add_sub_cancel_left, hg]
    simp
  rw [divStage_of_set hset]
  exact BitVec.xor_self

theorem rem_generator_append_zeros : rem (g ++ 0#3) g = 0 := by
  have hshift : g ++ 0#3 = g.setWidth 7 <<< 3 := by
    simpa using BitVec.setWidth_append_eq_shiftLeft_setWidth_or (b := g) (b' := 0#3) (w'' := 7)
  rw [rem, remD4, remD3, remD2, remD1, hshift, divStage_shiftedGenerator hg le_rfl, divStage_zero, divStage_zero,
    divStage_zero]
  rfl

/-- A polynomial divided by itself. -/
theorem rem_generator : rem (g.setWidth 7) g = 0 := by
  have hclear (k : Nat) (hk : 4 ≤ k) : (g.setWidth 7).getLsbD k = false := by simp [BitVec.getLsbD_of_ge g k hk]
  have hd3 : remD3 (g.setWidth 7) g = g.setWidth 7 := by
    rw [remD3, remD2, remD1, divStage_of_clear (hclear 6 (by decide)), divStage_of_clear (hclear 5 (by decide)),
      divStage_of_clear (hclear 4 le_rfl)]
  have hlast : divStage 3 0 g (g.setWidth 7) = 0 := by
    simpa using divStage_shiftedGenerator hg (Nat.zero_le 3)
  rw [rem, remD4, hd3, hlast]
  rfl

end

end Sys2Proof.Machine

namespace Sys2Proof

open Machine Polynomial

/-! #### The polynomial reading (00_scope.md R8) -/

section
variable {w : Nat}

theorem polynomialOf_coeff (v : BitVec w) (i : Nat) : (polynomialOf v).coeff i = if v.getLsbD i then 1 else 0 := by
  have hterm (j : Nat) : (if v.getLsbD j then X ^ j else 0 : (ZMod 2)[X]).coeff i =
      if i = j then if v.getLsbD j then 1 else 0 else 0 := by
    cases v.getLsbD j <;> simp [coeff_X_pow]
  simp only [polynomialOf, finsetSum_coeff, hterm, Finset.sum_ite_eq, Finset.mem_range, ite_eq_left_iff]
  intro hi
  simp [BitVec.getLsbD_of_ge v i (Nat.le_of_not_lt hi)]

theorem polynomialOf_injective : Function.Injective (polynomialOf (w := w)) := by
  intro u v h
  apply BitVec.eq_of_getLsbD_eq
  intro i _
  have hbits : ∀ a b : Bool, (if a then 1 else 0 : ZMod 2) = (if b then 1 else 0) → a = b := by decide
  apply hbits
  rw [← polynomialOf_coeff, h, polynomialOf_coeff]

/-- `xor` is the difference (and the sum) of polynomials over GF(2). -/
theorem polynomialOf_xor (u v : BitVec w) : polynomialOf (u ^^^ v) = polynomialOf u - polynomialOf v := by
  ext i
  rw [coeff_sub, polynomialOf_coeff, polynomialOf_coeff, polynomialOf_coeff, BitVec.getLsbD_xor]
  cases u.getLsbD i <;> cases v.getLsbD i <;> rfl

/-- A codeword whose bits from 3 up are clear has the polynomial of its low bits. -/
theorem polynomialOf_low_bits {d : Codeword} (hd : ClearFrom 3 d) :
    polynomialOf (d.extractLsb' 0 3) = polynomialOf d := by
  ext i
  rw [polynomialOf_coeff, polynomialOf_coeff]
  obtain hi | hi := Nat.lt_or_ge i 3
  · simp [hi]
  · simp [hd i hi, hi]

theorem degree_polynomialOf_lt (v : BitVec w) : (polynomialOf v).degree < w := by
  rw [degree_lt_iff_coeff_zero]
  intro i hi
  simp [polynomialOf_coeff, BitVec.getLsbD_of_ge v i hi]

end

/-- A shift of the generator multiplies by a power of x. -/
theorem polynomialOf_shiftedGenerator {n : Nat} (hn : n ≤ 3) (g : Generator) :
    polynomialOf (g.setWidth 7 <<< n) = X ^ n * polynomialOf g := by
  ext i
  rw [polynomialOf_coeff, coeff_X_pow_mul', polynomialOf_coeff, shiftedGenerator_getLsbD hn]
  by_cases h : n ≤ i <;> simp [h]

section
variable {g : Generator} (hg : g.getLsbD 3 = true)
include hg

theorem degree_polynomialOf : (polynomialOf g).degree = 3 := by
  apply le_antisymm
  · exact Order.le_of_lt_succ (degree_polynomialOf_lt g)
  · exact le_degree_of_ne_zero (by simp [polynomialOf_coeff, hg])

theorem monic_polynomialOf : (polynomialOf g).Monic :=
  monic_of_degree_le 3 (degree_polynomialOf hg).le (by simp [polynomialOf_coeff, hg])

end

/-! #### The remainder (R94) -/

/-- A stage changes the dividend by a multiple of the generator only. -/
theorem dvd_sub_divStage {k n : Nat} (hn : n ≤ 3) {g : Generator} {d : Codeword} {f : (ZMod 2)[X]}
    (h : polynomialOf g ∣ f - polynomialOf d) : polynomialOf g ∣ f - polynomialOf (divStage k n g d) := by
  cases hk : d.getLsbD k with
  | false => rwa [divStage_of_clear hk]
  | true =>
    rw [divStage_of_set hk, polynomialOf_xor, polynomialOf_shiftedGenerator hn, ← sub_add]
    exact dvd_add h (dvd_mul_left _ _)

theorem dvd_sub_remD4 (d : Codeword) (g : Generator) : polynomialOf g ∣ polynomialOf d - polynomialOf (remD4 d g) := by
  have h0 : polynomialOf g ∣ polynomialOf d - polynomialOf d := by simp
  exact dvd_sub_divStage (by decide) <| dvd_sub_divStage (by decide) <| dvd_sub_divStage (by decide) <|
    dvd_sub_divStage (by decide) h0

/-- With `g[3] = 1`, a 3-bit value congruent to the dividend is the polynomial remainder. -/
theorem polynomialOf_eq_modByMonic {d : Codeword} {g : Generator} {r : Syndrome} (hg : g.getLsbD 3 = true)
    (h : polynomialOf g ∣ polynomialOf d - polynomialOf r) : polynomialOf r = polynomialOf d %ₘ polynomialOf g := by
  have hmonic := monic_polynomialOf hg
  have hdegree : (polynomialOf r).degree < (polynomialOf g).degree := degree_polynomialOf hg ▸ degree_polynomialOf_lt r
  rw [modByMonic_eq_of_dvd_sub hmonic h, (modByMonic_eq_self_iff hmonic).mpr hdegree]

theorem dvd_sub_rem {d : Codeword} {g : Generator} (hg : g.getLsbD 3 = true) :
    polynomialOf g ∣ polynomialOf d - polynomialOf (rem d g) := by
  rw [rem, polynomialOf_low_bits (remD4_clears hg)]
  exact dvd_sub_remD4 d g

/-- Settles O12: with `g[3] = 1` the stages clear bits 6 to 3 one after the other and each changes the dividend by a
multiple of `g`, so what is left is the one value of degree below 3 congruent to it. -/
theorem remIsThePolynomialRemainder : Obligations.RemIsThePolynomialRemainder := by
  intro d g s hg
  have hrem := polynomialOf_eq_modByMonic hg (dvd_sub_rem (d := d) hg)
  refine ⟨(clearFrom_iff rfl _).mp (remD1_clears hg), (clearFrom_iff rfl _).mp (remD2_clears hg),
    (clearFrom_iff rfl _).mp (remD3_clears hg), (clearFrom_iff rfl _).mp (remD4_clears hg), ?_,
    rem d g, exec_rem d g s, hrem, fun r' hr' => ?_⟩
  · rw [polynomialOf_xor]
    exact dvd_sub_remD4 d g
  · exact polynomialOf_injective ((polynomialOf_eq_modByMonic hg hr').trans hrem.symm)

/-- Settles O13: by linearity the remainder is the sum of the table's entries, and so is each of its bits. -/
theorem remClosedFormForGen : Obligations.RemClosedFormForGen := by
  refine ⟨fun s hg => ?_, rem_oneBit_gen⟩
  have hport : s.remResult = rem s.remDividend gen := congrArg (rem s.remDividend) hg
  have hbit := rem_gen_getLsbD s.remDividend
  rw [← hport] at hbit
  exact ⟨by rw [hbit]; simp, by rw [hbit]; simp, by rw [hbit]; simp, hport.trans (rem_eq_foldl _ gen)⟩

/-- Settles O14: every stage is linear, so their chain is. -/
theorem remIsLinear : Obligations.RemIsLinear := fun _ a b g => ⟨rem_xor a b g, rem_zero g⟩

/-- Settles O15: the four stages are those of the rule for every generator; with `g[3] = 0` none of them clears the bit
it examines, so `d4[6:3]` is clear only for the 8 dividends below 8; with generator 0 every stage XORs with zero. -/
theorem remWithoutLeadingBitIsDefined : Obligations.RemWithoutLeadingBitIsDefined := by
  refine ⟨fun d g s hg => ⟨exec_rem_longDivision d g s, remD4_eq_longDivision d g, countP_remD4_high_bits hg⟩,
    fun d s => ?_, by decide⟩
  rw [exec_rem, rem_by_zero]

/-- Settles O11: `REM` writes down the low 3 bits of the model's `d4`, which is that of the rule. -/
theorem remDividesInFourChainedSteps : Obligations.RemDividesInFourChainedSteps := exec_rem_longDivision

/-- Settles O16: no stage fires for a dividend of three bits; stage 1 cancels the generator shifted by 3, stage 4 the
generator itself; the concrete rows are evaluated. -/
theorem remCornerCases : Obligations.RemCornerCases :=
  ⟨rem_zero, fun _ g => rem_of_high_bits_clear g, fun _ hg => ⟨rem_generator_append_zeros hg, rem_generator hg⟩,
    by decide⟩

end Sys2Proof

/-! ### The encoder: a codeword as a function of its message (41_encoder.md) -/

namespace Sys2Proof.Machine

/-- The check bits of a message: the remainder of the message shifted by 3 (41_encoder.md R112). -/
def messageCheck (m : Message) : Syndrome := rem (m ++ 0#3) gen

/-- The valid codeword of a message: the message in bits 6:3, its check bits in bits 2:0 (R114). -/
def messageCodeword (m : Message) : Codeword := m ++ messageCheck m

/-! #### Message bits and check bits (30_encoding.md R65) -/

theorem setWidth_check (r : Syndrome) : r.setWidth 7 = 0#4 ++ r := by
  simpa using BitVec.setWidth_eq_append (show 3 ≤ 7 by decide) (x := r)

/-- Under a message shifted by 3, `xor` puts the check bits in place. -/
theorem shifted_xor_check (m : Message) (r : Syndrome) : m ++ 0#3 ^^^ r.setWidth 7 = m ++ r := by
  rw [setWidth_check, BitVec.xor_append, BitVec.xor_zero, BitVec.zero_xor]

/-- And so does `or` (41_encoder.md R112 step 4). -/
theorem shifted_or_check (m : Message) (r : Syndrome) : m ++ 0#3 ||| r.setWidth 7 = m ++ r := by
  rw [setWidth_check, BitVec.or_append, BitVec.or_zero, BitVec.zero_or]

@[simp] theorem messageBits_append (m : Message) (r : Syndrome) : messageBits (m ++ r) = m :=
  BitVec.extractLsb'_append_eq_left

@[simp] theorem checkBits_append (m : Message) (r : Syndrome) : checkBits (m ++ r) = r :=
  BitVec.extractLsb'_append_eq_right

theorem messageBits_append_checkBits (c : Codeword) : messageBits c ++ checkBits c = c :=
  BitVec.extractLsb'_append_extractLsb' (w := 4) (len := 3)

@[simp] theorem messageBits_messageCodeword (m : Message) : messageBits (messageCodeword m) = m :=
  messageBits_append m _

theorem messageCodeword_injective : Function.Injective messageCodeword :=
  Function.LeftInverse.injective messageBits_messageCodeword

/-! #### The unit's values, by the message alone (41_encoder.md R112 to R114) -/

theorem encR_eq_messageCheck (b : Byte) : encR b = messageCheck (encMasked b) := rfl

theorem encCw_eq_messageCodeword (b : Byte) : encCw b = messageCodeword (encMasked b) := by
  rw [encCw, encR_eq_messageCheck, encShifted, shifted_or_check, messageCodeword]

/-- A message widened to a byte is masked back to itself. -/
@[simp] theorem encMasked_setWidth (m : Message) : encMasked (m.setWidth 8) = m := by
  rw [encMasked, BitVec.extractLsb'_setWidth_of_le (by decide), BitVec.extractLsb'_eq_self]

theorem enc_masked (b : Byte) : enc ((b.extractLsb' 0 4).setWidth 8) = enc b := by
  rw [enc, enc, encCw_eq_messageCodeword, encCw_eq_messageCodeword, encMasked_setWidth, encMasked]

/-- `ENC` drives its port and writes down the unit's byte; it changes nothing else. -/
theorem exec_enc (b : Byte) (s : State) :
    exec (.enc b) s = .next { s with encMessage := b, observed := s.observed ++ [⟨.enc b, enc b⟩] } := rfl

/-- The port is the codeword of the message, zero-extended. -/
theorem State.encCodeword_eq (s : State) :
    s.encCodeword = codewordByte (messageCodeword (encMasked s.encMessage)) :=
  congrArg codewordByte (encCw_eq_messageCodeword _)

/-- A field within the low 7 bits is not changed by the zero-extension. -/
theorem codewordByte_extractLsb' {c : Codeword} {start len : Nat} (h : start + len ≤ 7) :
    (codewordByte c).extractLsb' start len = c.extractLsb' start len := by
  ext i hi
  simp [codewordByte, show start + i < 8 by omega]

theorem codewordByte_xor (c c' : Codeword) : codewordByte (c ^^^ c') = codewordByte c ^^^ codewordByte c' :=
  BitVec.setWidth_xor

/-! #### Codewords and remainders (R115) -/

/-- By linearity the check bits are added to the remainder of the message. -/
theorem rem_append (m : Message) (r : Syndrome) : rem (m ++ r) gen = messageCheck m ^^^ r := by
  rw [← shifted_xor_check, rem_xor, rem_setWidth, messageCheck]

theorem rem_messageCodeword (m : Message) : rem (messageCodeword m) gen = 0 :=
  (rem_append m _).trans BitVec.xor_self

/-- A value without remainder is the codeword of its own message bits. -/
theorem messageCodeword_of_rem {c : Codeword} (h : rem c gen = 0) : messageCodeword (messageBits c) = c := by
  have hcheck : messageCheck (messageBits c) = checkBits c := by
    rw [← BitVec.xor_eq_zero_iff, ← rem_append, messageBits_append_checkBits]
    exact h
  rw [messageCodeword, hcheck, messageBits_append_checkBits]

/-! #### Linearity (R118) and the closed form (R116) -/

theorem messageCheck_xor (m m' : Message) : messageCheck (m ^^^ m') = messageCheck m ^^^ messageCheck m' := by
  rw [messageCheck, messageCheck, messageCheck, ← rem_xor, BitVec.xor_append, BitVec.xor_zero]

theorem messageCodeword_xor (m m' : Message) :
    messageCodeword (m ^^^ m') = messageCodeword m ^^^ messageCodeword m' := by
  rw [messageCodeword, messageCheck_xor, messageCodeword, messageCodeword, BitVec.xor_append]

theorem messageCodeword_zero : messageCodeword 0 = 0 := by decide

theorem enc_xor (a b : Byte) : enc (a ^^^ b) = enc a ^^^ enc b := by
  have hmasked : encMasked (a ^^^ b) = encMasked a ^^^ encMasked b := BitVec.extractLsb'_xor
  simp only [enc, encCw_eq_messageCodeword, hmasked, messageCodeword_xor, codewordByte_xor]

/-- Each check bit as the sum of the remainders of the message's powers of x. -/
theorem messageCheck_getLsbD (m : Message) (i : Nat) :
    (messageCheck m).getLsbD i =
      (m.getLsbD 0 && (3#3).getLsbD i ^^ m.getLsbD 1 && (6#3).getLsbD i ^^ m.getLsbD 2 && (7#3).getLsbD i ^^
        m.getLsbD 3 && (5#3).getLsbD i) := by
  rw [messageCheck, rem_gen_getLsbD]
  simp only [BitVec.getLsbD_append]
  simp

theorem State.encCodeword_getLsbD_check (s : State) {i : Nat} (hi : i < 3) :
    s.encCodeword.getLsbD i = (messageCheck (encMasked s.encMessage)).getLsbD i := by
  rw [s.encCodeword_eq, codewordByte, BitVec.getLsbD_setWidth, messageCodeword, BitVec.getLsbD_append]
  simp [hi, show i < 8 by omega]

/-! #### The table (R117) and its weights (R118) -/

theorem messageCodeword_table (m : Message) :
    codewordByte (messageCodeword m) = BitVec.ofNat 8
      ([0, 11, 22, 29, 39, 44, 49, 58, 69, 78, 83, 88, 98, 105, 116, 127].getD m.toNat 255) := by
  revert m; decide

theorem messageCheck_table (m : Message) :
    (messageCheck m).toNat = [0, 3, 6, 5, 7, 4, 1, 2, 5, 6, 3, 0, 2, 1, 4, 7].getD m.toNat 255 := by
  revert m; decide

theorem weight_messageCodeword_of_ne_zero {m : Message} : m ≠ 0 → 3 ≤ weight (messageCodeword m) := by
  revert m; decide

theorem encShifted_toNat (b : Byte) : (encShifted b).toNat = 8 * (encMasked b).toNat := by
  rw [encShifted, BitVec.toNat_append, ← Nat.shiftLeft_add_eq_or_of_lt (BitVec.isLt _), Nat.shiftLeft_eq]
  exact Nat.mul_comm _ _

end Sys2Proof.Machine

namespace Sys2Proof

open Machine

/-- The word of `ENC` is its unit's first word plus its operand (30_encoding.md R70). -/
theorem encodeWord_enc_toNat (b : Byte) : (encodeWord (.enc b)).toNat = 0x0800 + b.toNat := by
  rw [encodeWord, BitVec.toNat_append, ← Nat.shiftLeft_add_eq_or_of_lt b.isLt]
  rfl

/-! #### The valid codewords (00_scope.md R11) -/

theorem validCodeword_iff_exists_message {c : Codeword} :
    validCodeword c = true ↔ ∃ m : Message, messageCodeword m = c := by
  simp only [validCodeword, List.any_eq_true, List.mem_range, beq_iff_eq, encCw_eq_messageCodeword]
  constructor
  · rintro ⟨n, -, h⟩
    exact ⟨_, h⟩
  · rintro ⟨m, h⟩
    exact ⟨m.toNat, m.isLt, by rw [BitVec.ofNat_toNat, encMasked_setWidth, h]⟩

theorem validCodeword_iff_rem {c : Codeword} : validCodeword c = true ↔ rem c gen = 0 := by
  rw [validCodeword_iff_exists_message]
  constructor
  · rintro ⟨m, rfl⟩
    exact rem_messageCodeword m
  · exact fun h => ⟨_, messageCodeword_of_rem h⟩

/-- There are as many valid codewords as messages. -/
theorem countP_validCodeword : (List.range 128).countP (fun n => validCodeword (BitVec.ofNat 7 n)) = 16 := by
  have himage : (Finset.range 128).filter (fun n => validCodeword (BitVec.ofNat 7 n) = true) =
      Finset.univ.image (fun m => (messageCodeword m).toNat) := by
    ext n
    simp only [Finset.mem_filter, Finset.mem_range, validCodeword_iff_exists_message, Finset.mem_image,
      Finset.mem_univ, true_and]
    constructor
    · rintro ⟨hn, m, hm⟩
      exact ⟨m, by rw [hm, BitVec.toNat_ofNat, Nat.mod_eq_of_lt hn]⟩
    · rintro ⟨m, rfl⟩
      exact ⟨(messageCodeword m).isLt, m, by simp⟩
  have hinjective : Function.Injective fun m => (messageCodeword m).toNat :=
    BitVec.toNat_injective.comp messageCodeword_injective
  rw [countP_range_eq_card, himage, Finset.card_image_of_injective _ hinjective, Finset.card_univ, card_bitVec]
  rfl

/-- The difference of two codewords is the codeword of the difference of their messages. -/
theorem three_le_weight_xor {m m' : Message} (h : m ≠ m') :
    3 ≤ weight (messageCodeword m ^^^ messageCodeword m') := by
  rw [← messageCodeword_xor]
  exact weight_messageCodeword_of_ne_zero (mt BitVec.xor_eq_zero_iff.mp h)

/-! #### The statements -/

/-- Settles O18: the encoder reads the 4 message bits only, and for each of the 16 messages the table has its row. -/
theorem encCompletesWithTheTabulatedCodeword : Obligations.EncCompletesWithTheTabulatedCodeword := by
  intro b s
  have hlt : (b.extractLsb' 0 4).toNat < 2 ^ 8 := (BitVec.isLt _).trans (by decide)
  refine ⟨?_, encShifted_toNat b, messageCheck_table _, ?_⟩
  · rw [exec_enc, enc, encCw_eq_messageCodeword, messageCodeword_table, encMasked]
  · rw [encodeWord_enc_toNat, BitVec.toNat_ofNat, Nat.mod_eq_of_lt hlt]

/-- Settles O19: the mask keeps bits 3:0 only. -/
theorem encIgnoresHighBits : Obligations.EncIgnoresHighBits := by
  intro b s
  exact ⟨enc b, exec_enc b s, by rw [exec_enc, enc_masked]⟩

/-- Settles O20: the message bits and the check bits do not overlap. -/
theorem encIsSystematic : Obligations.EncIsSystematic := by
  intro s
  rw [State.encCodeword_eq, codewordByte_extractLsb' (by decide), codewordByte_extractLsb' (by decide),
    codewordByte_getLsbD_seven]
  exact ⟨messageBits_append _ _, checkBits_append _ _, checkBits_append _ _,
    (encCw_eq_messageCodeword _).trans (shifted_xor_check _ _).symm, encCw_eq_messageCodeword _, rfl⟩

/-- Settles O21: the check bits cancel the remainder of the message, and no other check bits do. -/
theorem codewordsHaveRemainderZero : Obligations.CodewordsHaveRemainderZero := by
  refine ⟨fun b s => ?_, fun c => validCodeword_iff_rem.symm, countP_validCodeword⟩
  have hrem : rem ((enc b).extractLsb' 0 7) 0xB = 0 := by
    rw [enc, codewordByte_extractLsb' le_rfl, BitVec.extractLsb'_eq_self, encCw_eq_messageCodeword]
    exact rem_messageCodeword _
  rw [exec_rem, hrem]
  rfl

/-- Settles O22: a check bit is the sum of the entries of R95's table at the message's powers of x. -/
theorem encCheckBitsClosedForm : Obligations.EncCheckBitsClosedForm := by
  intro s
  have hbit {i : Nat} (hi : i < 3) := (s.encCodeword_getLsbD_check hi).trans (messageCheck_getLsbD _ i)
  refine ⟨(hbit (by decide)).trans ?_, (hbit (by decide)).trans ?_, (hbit (by decide)).trans ?_⟩ <;>
    simp [encMasked]

/-- Settles O23: the code is linear, so the difference of two codewords is a codeword and its weight is at least that
of the lightest codeword but 0. -/
theorem codeIsLinearWithDistanceThree : Obligations.CodeIsLinearWithDistanceThree := by
  refine ⟨fun _ a b => ⟨enc_xor a b, enc_fill false⟩, by decide, fun c c' hc hc' hne => ?_,
    fun c hc hzero => ?_⟩
  · obtain ⟨m, rfl⟩ := validCodeword_iff_exists_message.mp hc
    obtain ⟨m', rfl⟩ := validCodeword_iff_exists_message.mp hc'
    have hmessage : m ≠ m' := fun h => hne (congrArg messageCodeword h)
    exact ⟨three_le_weight_xor hmessage, by simpa using hmessage⟩
  · obtain ⟨m, rfl⟩ := validCodeword_iff_exists_message.mp hc
    rw [messageBits_messageCodeword] at hzero
    rw [hzero, messageCodeword_zero]

/-- Settles O17: the model's division is the long division of the rule. -/
theorem encAppendsTheRemainder : Obligations.EncAppendsTheRemainder := by
  intro b s
  rw [exec_enc, enc, encCw, encR, rem, remD4_eq_longDivision]
  rfl

end Sys2Proof

/-! ### The decoder: the word it corrects to, and the distance to the code (42_decoder.md) -/

namespace Sys2Proof.Machine

/-- The word the decoder corrects a received word to: the mask for its syndrome is added (42_decoder.md R132). -/
def correctedWord (c : Codeword) : Codeword := c ^^^ synrom (rem c gen)

/-! #### The unit's values, by the masked word alone (R132, R133) -/

theorem decCorrected_eq_correctedWord (b : Byte) : decCorrected b = correctedWord (decMasked b) := by
  rw [decCorrected, decMask_eq_synrom, decSyndrome, correctedWord]

theorem dec_eq_correctedWord (b : Byte) : dec b = messageByte (messageBits (correctedWord (decMasked b))) := by
  rw [dec, decCorrected_eq_correctedWord]

/-- `DEC` drives its port and writes down the unit's byte; it changes nothing else. -/
theorem exec_dec (b : Byte) (s : State) :
    exec (.dec b) s = .next { s with decCodeword := b, observed := s.observed ++ [⟨.dec b, dec b⟩] } := rfl

/-- A codeword widened to a byte is masked back to itself. -/
@[simp] theorem decMasked_codewordByte (c : Codeword) : decMasked (codewordByte c) = c := by
  rw [decMasked, codewordByte_extractLsb' le_rfl, BitVec.extractLsb'_eq_self]

theorem messageBits_decMasked (b : Byte) : messageBits (decMasked b) = b.extractLsb' 3 4 := by
  ext i hi
  simp [messageBits, decMasked]

theorem messageBits_xor (c c' : Codeword) : messageBits (c ^^^ c') = messageBits c ^^^ messageBits c' :=
  BitVec.extractLsb'_xor

theorem dec_masked (b : Byte) : dec (codewordByte (decMasked b)) = dec b := by
  rw [dec_eq_correctedWord, dec_eq_correctedWord, decMasked_codewordByte]

/-- A message widened to a byte keeps its value. -/
theorem messageByte_injective : Function.Injective messageByte :=
  Function.LeftInverse.injective encMasked_setWidth

/-- Bit `i` of the message is bit `3 + i` of the received word, flipped if the mask has it. -/
theorem dec_getLsbD (b : Byte) {i : Nat} (hi : i < 4) :
    (dec b).getLsbD i = (b.getLsbD (3 + i) ^^ (synrom (decSyndrome b)).getLsbD (3 + i)) := by
  simp [dec, messageByte, messageBits, decCorrected, decMask_eq_synrom, decMasked, hi, show i < 8 by omega,
    show 3 + i < 7 by omega]

/-! #### The table's masks (43_syndrome_table.md R151) -/

/-- The syndrome of a mask is its index: a flip gives the syndrome it is looked up by (R153). -/
@[simp] theorem rem_synrom (k : Syndrome) : rem (synrom k) gen = k := by
  revert k; decide

theorem weight_synrom_le_one (k : Syndrome) : weight (synrom k) ≤ 1 := by
  obtain rfl | hk := eq_or_ne k 0
  · decide
  · exact (weight_syn_of_ne_zero hk).le

/-- Each message bit is in the mask of one syndrome (42_decoder.md R138). -/
theorem synrom_message_bits (k : Syndrome) :
    (synrom k).getLsbD 3 = (k == 3) ∧ (synrom k).getLsbD 4 = (k == 6) ∧ (synrom k).getLsbD 5 = (k == 7) ∧
      (synrom k).getLsbD 6 = (k == 5) := by
  revert k; decide

/-- The masks of syndromes 1, 2 and 4 are in the check bits (R138). -/
theorem messageBits_synrom_of_check {k : Syndrome} (hk : k = 1 ∨ k = 2 ∨ k = 4) : messageBits (synrom k) = 0 := by
  obtain rfl | rfl | rfl := hk <;> decide

/-! #### Weights (41_encoder.md R118) -/

/-- The bits of a sum are among those of its terms. -/
theorem weight_xor_le {w : Nat} (u v : BitVec w) : weight (u ^^^ v) ≤ weight u + weight v := by
  simp only [weight, countP_range_eq_card]
  refine (Finset.card_le_card fun i => ?_).trans (Finset.card_union_le _ _)
  simp only [Finset.mem_union, Finset.mem_filter, BitVec.getLsbD_xor, ← and_or_left]
  exact And.imp_right fun h => by
    cases hu : u.getLsbD i with
    | false => simpa [hu] using h
    | true => exact .inl rfl

/-- The zero codeword is the only one of weight below 3. -/
theorem eq_zero_of_rem_of_weight {e : Codeword} (hrem : rem e gen = 0) (hweight : weight e ≤ 2) : e = 0 := by
  rw [← messageCodeword_of_rem hrem] at hweight ⊢
  obtain hzero | hne := eq_or_ne (messageBits e) 0
  · rw [hzero, messageCodeword_zero]
  · exact absurd (weight_messageCodeword_of_ne_zero hne) (by omega)

/-! #### The corrected word is the one codeword within one bit (R136) -/

theorem xor_correctedWord (c : Codeword) : c ^^^ correctedWord c = synrom (rem c gen) := xor_cancel_left c _

/-- No syndrome, no correction. -/
theorem correctedWord_of_rem {c : Codeword} (hc : rem c gen = 0) : correctedWord c = c := by
  rw [correctedWord, hc]
  exact BitVec.xor_zero

/-- The mask cancels the syndrome. -/
theorem rem_correctedWord (c : Codeword) : rem (correctedWord c) gen = 0 := by
  rw [correctedWord, rem_xor, rem_synrom]
  exact BitVec.xor_self

/-- Adding a codeword changes no syndrome, so no correction. -/
theorem correctedWord_xor {c : Codeword} (hc : rem c gen = 0) (e : Codeword) :
    correctedWord (c ^^^ e) = c ^^^ correctedWord e := by
  simp [correctedWord, rem_xor, hc, BitVec.xor_assoc]

/-- An error of at most one bit is corrected away: what is left of it is a codeword of weight at most 2. -/
theorem correctedWord_of_weight_le_one {e : Codeword} (he : weight e ≤ 1) : correctedWord e = 0 := by
  have hweight : weight (correctedWord e) ≤ weight e + weight (synrom (rem e gen)) := weight_xor_le _ _
  have hmask := weight_synrom_le_one (rem e gen)
  exact eq_zero_of_rem_of_weight (rem_correctedWord e) (by omega)

/-- An error of more than one bit is not: the mask has one bit at most. -/
theorem correctedWord_ne_zero {e : Codeword} (he : 2 ≤ weight e) : correctedWord e ≠ 0 := by
  intro hzero
  have hmask := weight_synrom_le_one (rem e gen)
  rw [← BitVec.xor_eq_zero_iff.mp hzero] at hmask
  omega

theorem eq_correctedWord_of_weight_xor_le_one {c c' : Codeword} (hc' : rem c' gen = 0) (h : weight (c ^^^ c') ≤ 1) :
    c' = correctedWord c := by
  have hc : c = c' ^^^ (c ^^^ c') := (xor_xor_cancel_comm_assoc c' c).symm
  rw [hc, correctedWord_xor hc', correctedWord_of_weight_le_one h]
  exact BitVec.xor_zero.symm

/-! #### A codeword received with an error (R134, R135, R137) -/

theorem enc_setWidth (m : Message) : enc (m.setWidth 8) = codewordByte (messageCodeword m) := by
  rw [enc, encCw_eq_messageCodeword, encMasked_setWidth]

@[simp] theorem decMasked_enc (m : Message) : decMasked (enc (m.setWidth 8)) = messageCodeword m := by
  rw [enc_setWidth, decMasked_codewordByte]

section
variable (m : Message) (e : Codeword)

@[simp] theorem decMasked_received : decMasked (enc (m.setWidth 8) ^^^ e.setWidth 8) = messageCodeword m ^^^ e := by
  rw [enc_setWidth, ← codewordByte, ← codewordByte_xor, decMasked_codewordByte]

/-- The syndrome is that of the error. -/
@[simp] theorem decSyndrome_received : decSyndrome (enc (m.setWidth 8) ^^^ e.setWidth 8) = rem e gen := by
  rw [decSyndrome, decMasked_received, rem_xor, rem_messageCodeword]
  exact BitVec.zero_xor

theorem decCorrected_received :
    decCorrected (enc (m.setWidth 8) ^^^ e.setWidth 8) = messageCodeword m ^^^ correctedWord e := by
  rw [decCorrected_eq_correctedWord, decMasked_received, correctedWord_xor (rem_messageCodeword m)]

/-- What the correction leaves of the error is added to the message. -/
theorem dec_received :
    dec (enc (m.setWidth 8) ^^^ e.setWidth 8) = messageByte (m ^^^ messageBits (correctedWord e)) := by
  rw [dec, decCorrected_received, messageBits_xor, messageBits_messageCodeword]

end

theorem dec_received_of_weight_le_one (m : Message) {e : Codeword} (he : weight e ≤ 1) :
    dec (enc (m.setWidth 8) ^^^ e.setWidth 8) = m.setWidth 8 := by
  rw [dec_received, correctedWord_of_weight_le_one he]
  simp [messageBits, messageByte]

/-- What is left of a larger error is a codeword other than 0, and its message is not 0. -/
theorem dec_received_ne (m : Message) {e : Codeword} (he : 2 ≤ weight e) :
    dec (enc (m.setWidth 8) ^^^ e.setWidth 8) ≠ m.setWidth 8 := by
  intro h
  rw [dec_received] at h
  have hmessage : messageBits (correctedWord e) = 0 := by
    simpa using messageByte_injective h
  refine correctedWord_ne_zero he ?_
  rw [← messageCodeword_of_rem (rem_correctedWord e), hmessage, messageCodeword_zero]

/-! #### One flip (R135) -/

theorem eq_of_oneBit_eq {p q : Nat} (hp : p < 7) (hq : q < 7) (h : oneBit p = oneBit q) : p = q := by
  have hbit := oneBit_getLsbD_self hq
  rw [← h, oneBit_getLsbD hp] at hbit
  exact of_decide_eq_true hbit

theorem weight_oneBit {p : Nat} (hp : p < 7) : weight (oneBit p) = 1 := by
  revert p; decide

theorem rem_oneBit_ne_zero {p : Nat} (hp : p < 7) : rem (oneBit p) gen ≠ 0 := by
  intro h
  have hzero := eq_zero_of_rem_of_weight h (by rw [weight_oneBit hp]; decide)
  simpa [hzero] using oneBit_getLsbD_self hp

theorem setWidth_oneBit {p : Nat} (hp : p < 7) : (oneBit p).setWidth 8 = 1#8 <<< p := by
  revert p; decide

/-! #### Counts (R136, R137) -/

/-- The words of a syndrome are the codewords with its mask added. -/
theorem rem_eq_iff_exists_message {c : Codeword} {k : Syndrome} :
    rem c gen = k ↔ ∃ m : Message, messageCodeword m ^^^ synrom k = c := by
  constructor
  · rintro rfl
    refine ⟨messageBits (correctedWord c), ?_⟩
    rw [messageCodeword_of_rem (rem_correctedWord c), correctedWord, xor_cancel_right]
  · rintro ⟨m, rfl⟩
    rw [rem_xor, rem_messageCodeword, rem_synrom]
    exact BitVec.zero_xor

end Sys2Proof.Machine

namespace Sys2Proof

open Machine

/-- A property of codewords that holds of the different values of a function on a finite type holds of as many of the
128 words as the function has arguments. -/
theorem countP_codewords_eq_card {α : Type} [Fintype α] {p : Codeword → Bool} {f : α → Codeword}
    (hf : Function.Injective f) (hp : ∀ c, p c = true ↔ ∃ a, f a = c) :
    (List.range 128).countP (fun n => p (BitVec.ofNat 7 n)) = Fintype.card α := by
  have himage : (Finset.range 128).filter (fun n => p (BitVec.ofNat 7 n) = true) =
      Finset.univ.image (fun a => (f a).toNat) := by
    ext n
    simp only [Finset.mem_filter, Finset.mem_range, hp, Finset.mem_image, Finset.mem_univ, true_and]
    constructor
    · rintro ⟨hn, a, ha⟩
      exact ⟨a, by rw [ha, BitVec.toNat_ofNat, Nat.mod_eq_of_lt hn]⟩
    · rintro ⟨a, rfl⟩
      exact ⟨(f a).isLt, a, by simp⟩
  have hinjective : Function.Injective fun a => (f a).toNat := BitVec.toNat_injective.comp hf
  rw [countP_range_eq_card, himage, Finset.card_image_of_injective _ hinjective, Finset.card_univ]

/-- Each syndrome occurs as often as there are messages. -/
theorem countP_rem_eq (k : Syndrome) : (List.range 128).countP (fun n => rem (BitVec.ofNat 7 n) gen == k) = 16 := by
  have hinjective : Function.Injective fun m => messageCodeword m ^^^ synrom k := fun m m' h =>
    messageCodeword_injective ((BitVec.xor_left_inj _).mp h)
  exact (countP_codewords_eq_card (p := fun c => rem c gen == k) hinjective fun c => by
    rw [beq_iff_eq, rem_eq_iff_exists_message]).trans (card_bitVec 4)

/-- The 7-bit error patterns with exactly three bits set (42_decoder.md R137). -/
def weightThreePatterns : List Codeword := ((List.range 128).map (BitVec.ofNat 7)).filter (fun e => weight e == 3)

theorem length_weightThreePatterns : weightThreePatterns.length = 35 := by decide

theorem countP_weightThreePatterns : weightThreePatterns.countP validCodeword = 7 := by decide

/-- Whatever the message, an error leaves syndrome 0 exactly when it is a valid codeword. -/
theorem decSyndrome_received_eq_zero_iff (m : Message) (e : Codeword) :
    decSyndrome (enc (m.setWidth 8) ^^^ e.setWidth 8) = 0 ↔ validCodeword e = true := by
  rw [decSyndrome_received, validCodeword_iff_rem]

/-- For each of the 16 messages the patterns that leave syndrome 0 are the valid codewords among them. -/
theorem countP_received (patterns : List Codeword) :
    ((List.range 16).flatMap fun n => patterns.map fun e => enc (BitVec.ofNat 8 n) ^^^ e.setWidth 8).countP
      (decSyndrome · == 0) = 16 * patterns.countP validCodeword := by
  have heach (n : Nat) (hn : n ∈ List.range 16) :
      (patterns.map fun e => enc (BitVec.ofNat 8 n) ^^^ e.setWidth 8).countP (decSyndrome · == 0) =
        patterns.countP validCodeword := by
    rw [List.countP_map, ← BitVec.setWidth_ofNat_of_le_of_lt (by decide : 4 ≤ 8) (List.mem_range.mp hn)]
    refine List.countP_congr fun e _ => ?_
    simpa using decSyndrome_received_eq_zero_iff (BitVec.ofNat 4 n) e
  rw [List.countP_flatMap, Function.comp_def, List.map_congr_left heach, List.map_const', List.sum_replicate,
    List.length_range, smul_eq_mul]

/-! #### The statements -/

/-- Settles O24: the model's division is the long division of the rule, and the table's entry for syndrome 0 is 0. -/
theorem decCorrectsByTheSyndromeTable : Obligations.DecCorrectsByTheSyndromeTable := by
  intro b s masked syndrome mask corrected
  have hsyndrome : syndrome = decSyndrome b := by
    rw [decSyndrome, rem, remD4_eq_longDivision]
    rfl
  have hmask : mask = synrom syndrome := by
    rw [hsyndrome, ← decMask_eq_synrom]
    simp [mask, decMask, syndromeIsZero, hsyndrome]
  have hcorrected : corrected = decCorrected b := by
    rw [decCorrected, decMask_eq_synrom, ← hsyndrome, ← hmask]
    rfl
  refine ⟨?_, hmask⟩
  rw [hcorrected]
  exact exec_dec b s

/-- Settles O25: the unit masks bit 7 off, and its message is zero-extended. -/
theorem decIgnoresBitSeven : Obligations.DecIgnoresBitSeven := by
  intro b s
  refine ⟨dec b, exec_dec b s, ?_, messageByte_high_bits _⟩
  have hmasked : dec ((b.extractLsb' 0 7).setWidth 8) = dec b := dec_masked b
  rw [exec_dec, hmasked]

/-- Settles O26: a codeword has syndrome 0, so its own message bits are given. -/
theorem uncorruptedCodewordsDecode : Obligations.UncorruptedCodewordsDecode := by
  constructor
  · intro m s
    rw [exec_dec, dec_eq_correctedWord, decSyndrome, decMasked_enc, correctedWord_of_rem (rem_messageCodeword m),
      messageBits_messageCodeword]
    exact ⟨rfl, rem_messageCodeword m⟩
  · intro s hvalid
    have hrem : rem (decMasked s.decCodeword) gen = 0 := validCodeword_iff_rem.mp hvalid
    rw [State.decMessage, dec_eq_correctedWord, correctedWord_of_rem hrem, messageBits_decMasked]
    exact ⟨rfl, hrem⟩

/-- Settles O27: the syndrome is that of the flip alone, and the table inverts it. -/
theorem everySingleFlipIsCorrected : Obligations.EverySingleFlipIsCorrected := by
  constructor
  · intro m p s hp c
    have hc : c = enc (m.setWidth 8) ^^^ (oneBit p).setWidth 8 := by rw [setWidth_oneBit hp]
    have hweight : weight (oneBit p) ≤ 1 := (weight_oneBit hp).le
    rw [exec_dec, hc, dec_received_of_weight_le_one m hweight, decCorrected_received,
      correctedWord_of_weight_le_one hweight]
    exact ⟨rfl, decSyndrome_received m _, rem_oneBit_ne_zero hp, syn_rem_oneBit hp,
      BitVec.xor_zero.trans (decMasked_enc m).symm⟩
  · intro p q hp hq h
    refine eq_of_oneBit_eq hp hq ?_
    rw [← syn_rem_oneBit hp, h, syn_rem_oneBit hq]

/-- Settles O29: the mask cancels the syndrome with at most one bit, and codewords are at distance 3 or more. -/
theorem decFindsTheUniqueNearestCodeword : Obligations.DecFindsTheUniqueNearestCodeword := by
  refine ⟨?_, countP_rem_eq⟩
  intro s c
  rw [decCorrected_eq_correctedWord]
  refine ⟨validCodeword_iff_rem.mpr (rem_correctedWord _), ?_,
    fun c' hc' h => eq_correctedWord_of_weight_xor_le_one (validCodeword_iff_rem.mp hc') h, dec_eq_correctedWord _⟩
  exact (congrArg weight (xor_correctedWord c)).trans_le (weight_synrom_le_one _)

/-- Settles O30: what the one-bit correction leaves of a larger error is a codeword other than 0, so another message
is given; the syndrome is the error's, and no codeword has weight 2. -/
theorem twoOrMoreFlipsAlwaysMiscorrect : Obligations.TwoOrMoreFlipsAlwaysMiscorrect := by
  constructor
  · intro m e s he c
    have hsyndrome : decSyndrome c = rem e gen := decSyndrome_received m e
    refine ⟨dec c, exec_dec c s, dec_received_ne m he, fun htwo => ?_,
      fun _ => decSyndrome_received_eq_zero_iff m e, fun hzero => by rw [decMask_eq_synrom, hzero]; rfl⟩
    have hne : decSyndrome c ≠ 0 := by
      rw [hsyndrome]
      intro hrem
      rw [eq_zero_of_rem_of_weight hrem htwo.le] at he
      exact absurd he (by decide)
    refine ⟨hne, ?_⟩
    rw [decMask_eq_synrom]
    exact weight_syn_of_ne_zero hne
  · intro patterns received
    have hpatterns : patterns = weightThreePatterns := rfl
    refine ⟨?_, ?_, countP_weightThreePatterns⟩
    · simp [received, hpatterns, List.length_flatMap, length_weightThreePatterns]
    · rw [countP_received, hpatterns, countP_weightThreePatterns]

/-- Settles O31: the mask adds to each message bit whether the syndrome is that bit's. -/
theorem decMessageClosedForm : Obligations.DecMessageClosedForm := by
  intro s b k
  have hbit {i : Nat} (hi : i < 4) : s.decMessage.getLsbD i = (b.getLsbD (3 + i) ^^ (synrom k).getLsbD (3 + i)) :=
    dec_getLsbD b hi
  obtain ⟨h3, h4, h5, h6⟩ := synrom_message_bits k
  have hmask {j : Syndrome} (hj : k = j) : decMask b = synrom j := by rw [decMask_eq_synrom, ← hj]
  refine ⟨by rw [hbit (by decide), h3], by rw [hbit (by decide), h4], by rw [hbit (by decide), h5],
    by rw [hbit (by decide), h6], hmask, hmask, hmask, hmask, hmask, hmask, hmask, fun hk => ?_⟩
  have hmessage : s.decMessage.extractLsb' 0 4 = messageBits (decCorrected b) := encMasked_setWidth _
  rw [hmessage, decCorrected, messageBits_xor, messageBits_decMasked, decMask_eq_synrom,
    messageBits_synrom_of_check hk]
  exact BitVec.xor_zero

end Sys2Proof

/-! ### The syndrome table: a mask for each syndrome, and the syndrome of each mask (43_syndrome_table.md) -/

namespace Sys2Proof.Machine

/-! #### The operation (R152) -/

/-- `SYN` drives its port and writes down the mask, zero-extended; it changes nothing else. -/
theorem exec_syn (k : Syndrome) (s : State) :
    exec (.syn k) s = .next { s with synSyndrome := k, observed := s.observed ++ [⟨.syn k, (syn k).setWidth 8⟩] } :=
  rfl

/-- The contents of the table (R151). -/
theorem syn_table (k : Syndrome) :
    (syn k).setWidth 8 = BitVec.ofNat 8 ([0, 1, 2, 8, 4, 64, 16, 32].getD k.toNat 255) := by
  revert k; decide

/-- An index's row in the list of all eight operations: its word, itself, and its mask as the result byte (R156). -/
def synRow (k : Syndrome) : OpWord × Syndrome × Byte := (encodeWord (.syn k), k, (syn k).setWidth 8)

/-! #### Which bits a mask touches, and which masks there are (R155) -/

/-- The syndrome of a mask tells masks apart. -/
theorem syn_injective : Function.Injective syn :=
  Function.LeftInverse.injective (g := fun c => rem c gen) rem_synrom

/-- The masks of syndromes 3, 6, 7 and 5 are in the message bits. -/
theorem bits_syn_of_message {k : Syndrome} (hk : k = 3 ∨ k = 6 ∨ k = 7 ∨ k = 5) :
    checkBits (syn k) = 0 ∧ messageBits (syn k) ≠ 0 := by
  obtain rfl | rfl | rfl | rfl := hk <;> decide

theorem checkBits_syn_of_check {k : Syndrome} (hk : k = 1 ∨ k = 2 ∨ k = 4) : checkBits (syn k) ≠ 0 := by
  obtain rfl | rfl | rfl := hk <;> decide

/-- A word of one bit is the mask of its own syndrome: the correction takes the bit away. -/
theorem syn_rem_of_weight_one {c : Codeword} (hc : weight c = 1) : syn (rem c gen) = c :=
  (BitVec.xor_eq_zero_iff.mp (correctedWord_of_weight_le_one hc.le)).symm

theorem rem_ne_zero_of_weight_one {c : Codeword} (hc : weight c = 1) : rem c gen ≠ 0 := by
  intro hrem
  rw [eq_zero_of_rem_of_weight hrem (by omega)] at hc
  exact absurd hc (by decide)

/-! #### Single flips of a codeword (R153) -/

/-- The syndromes of the seven flips are the seven nonzero syndromes, each once. -/
theorem countP_rem_oneBit {k : Syndrome} (hk : k ≠ 0) :
    (List.range 7).countP (fun p => rem (oneBit p) gen == k) = 1 := by
  have hmem : k ∈ ([1, 2, 4, 3, 6, 7, 5] : List Syndrome) := by
    revert k; decide
  have hcount := List.count_eq_one_of_mem (by decide) hmem
  rwa [← rem_oneBit_gen, List.count, List.countP_map] at hcount

/-- A flip gives a codeword the syndrome of the flip. -/
theorem rem_codeword_xor {c : Codeword} (hc : rem c gen = 0) (e : Codeword) : rem (c ^^^ e) gen = rem e gen := by
  rw [rem_xor, hc]
  exact BitVec.zero_xor

/-- The correction takes a single flip away from a codeword. -/
theorem correctedWord_xor_oneBit {c : Codeword} (hc : rem c gen = 0) {p : Nat} (hp : p < 7) :
    correctedWord (c ^^^ oneBit p) = c := by
  rw [correctedWord_xor hc, correctedWord_of_weight_le_one (weight_oneBit hp).le]
  exact BitVec.xor_zero

end Sys2Proof.Machine

namespace Sys2Proof

open Machine

/-! #### The statements -/

/-- Settles O33: the table inverts the syndrome of a flip, and a codeword adds nothing to that syndrome. -/
theorem tableInvertsSingleErrorSyndromes : Obligations.TableInvertsSingleErrorSyndromes := by
  refine ⟨fun s p hp => ⟨rem (oneBit p) gen, exec_rem _ _ s, ?_⟩, rem_synrom, rem_oneBit_gen, fun c hvalid => ?_⟩
  · rw [exec_syn, syn_rem_oneBit hp]
  · have hc : rem c gen = 0 := validCodeword_iff_rem.mp hvalid
    refine ⟨fun k hk => ?_, fun p hp => correctedWord_xor_oneBit hc hp⟩
    simp only [rem_codeword_xor hc]
    exact countP_rem_oneBit hk

/-- Settles O34: the syndrome of a mask is its index, and a word of one bit is the mask of its syndrome. -/
theorem maskIsOneHot : Obligations.MaskIsOneHot := by
  refine ⟨fun s => ⟨State.weight_synMask, State.synMask_of_zero, bits_syn_of_message, fun hk => ?_⟩,
    fun _ _ h => syn_injective h,
    fun c hc => ⟨rem c gen, rem_ne_zero_of_weight_one hc, syn_rem_of_weight_one hc⟩⟩
  exact ⟨messageBits_synrom_of_check hk, checkBits_syn_of_check hk⟩

/-- Settles O32: the unit's output is the table's entry at the index driven. -/
theorem synReadsTheTable : Obligations.SynReadsTheTable := by
  intro k s
  rw [exec_syn, syn_table]

/-- Settles O35: each listed word is the word of its operation, and the byte beside it is the table's entry. -/
theorem allEightSynWords : Obligations.AllEightSynWords := by
  refine ⟨fun s rest row hrow hpending => ?_, by decide⟩
  have hrow : row ∈ ([0, 1, 2, 3, 4, 5, 6, 7] : List Syndrome).map synRow := hrow
  obtain ⟨k, -, rfl⟩ := List.mem_map.mp hrow
  exact (step_of_encodeWord (i := .syn k) hpending).trans (exec_syn k _)

end Sys2Proof

/-! ### What can stop a step (60_exceptions.md) -/

namespace Sys2Proof.Machine

/-- A refusal has one reason, and it lies in the first pending word: an ended sequence goes on, and a word that spells
an operation completes (R176). -/
theorem invalid_of_step_refused {s : State} {r : Refusal} (h : step s = .refused r) :
    r = .invalidOperationWord ∧ ∃ w rest, s.pending = w :: rest ∧ decodeWord w = .invalidOperationWord := by
  obtain ⟨-, hidle⟩ | ⟨w, rest, i, -, -, hperform⟩ | ⟨w, rest, hpending, hinvalid, hrefuse⟩ := step_cases s
  · cases hidle.symm.trans h
  · obtain ⟨t, hexec, -, -⟩ := exec_adds_outcome i { s with pending := rest }
    cases (hperform.trans hexec).symm.trans h
  · cases hrefuse.symm.trans h
    exact ⟨rfl, w, rest, hpending, hinvalid⟩

end Sys2Proof.Machine

namespace Sys2Proof

open Machine

/-- Settles O7: every operation adds its outcome, there is no fault for a step to raise, and a refusal comes from a
first word that spells no operation, which is a word of no row. -/
theorem onlyAnInvalidWordStopsAStep : Obligations.OnlyAnInvalidWordStopsAStep := by
  refine ⟨fun i s => ?_, fun _ f => (nomatch f), fun s r h => ?_⟩
  · obtain ⟨t, hexec, -, hobserved⟩ := exec_adds_outcome i s
    exact ⟨t, hexec, hobserved⟩
  · obtain ⟨hreason, w, rest, hpending, hinvalid⟩ := invalid_of_step_refused h
    exact ⟨hreason, w, rest, hpending, Bool.eq_false_iff.mpr (decodeWord_eq_invalid_iff_not_valid.mp hinvalid)⟩

end Sys2Proof

/-! ### Sequences of operations, and the port protocol in time (70_reset_and_hazards.md) -/

namespace Sys2Proof.Machine

/-! #### A step (R197) -/

/-- A step that goes on is idle, or takes the word of one operation off the sequence and adds its outcome. -/
theorem step_next_cases {s t : State} (h : step s = .next t) :
    (s.pending = [] ∧ t = s) ∨
    ∃ i, s.pending = encodeWord i :: t.pending ∧ t.observed = s.observed ++ [outcome i] := by
  obtain ⟨hnil, hidle⟩ | ⟨w, rest, i, hpending, hdecode, hperform⟩ | ⟨w, rest, -, -, hrefuse⟩ := step_cases s
  · exact .inl ⟨hnil, Host.Outcome.next.inj (h.symm.trans hidle)⟩
  · obtain ⟨u, hexec, hrest, hobserved⟩ := exec_adds_outcome i { s with pending := rest }
    obtain rfl : t = u := Host.Outcome.next.inj (h.symm.trans (hperform.trans hexec))
    exact .inr ⟨i, by rw [hpending, encodeWord_of_decodeWord hdecode, hrest], hobserved⟩
  · cases hrefuse.symm.trans h

/-! #### Actions that leave a port group's operands as they are (R191) -/

/-- What leaves a group alone puts no other operands on it. -/
theorem HostAction.not_disturbs_of_not_drives {i : Instr} {a : HostAction} (h : a.drives i.unit = false) :
    a.disturbs i = false := by
  cases a with
  | drive j =>
    have hunit : (j.unit == i.unit) = false := h
    rw [HostAction.disturbs, hunit, Bool.false_and]
  | wait n => rfl
  | sample v => rfl

theorem waited_cons (a : HostAction) (as : List HostAction) : waited (a :: as) = waited [a] + waited as := by
  cases a <;> simp [waited]

section
variable (t : Timed) {u : PortGroup}

/-- A drive that does not disturb a group is of another group, or of the operands already there. -/
theorem Timed.drive_of_undisturbed {j : Instr} (h : (HostAction.drive j).disturbs (t.state.present u) = false) :
    (t.drive j).state.present u = t.state.present u ∧ (t.drive j).held u = t.held u := by
  by_cases hu : j.unit = u
  · have hj : j = t.state.present u := by simpa [HostAction.disturbs, hu] using h
    rw [Timed.drive_of_present t (by rw [hu, hj])]
    exact ⟨rfl, rfl⟩
  · exact ⟨by rw [Timed.drive_state, State.drive_present_of_ne _ hu], Timed.drive_held_of_ne t hu⟩

/-- An action that does not disturb a group keeps its operands, and its holding time grows by the time taken. -/
theorem Timed.act_of_undisturbed {a : HostAction} (h : a.disturbs (t.state.present u) = false) :
    (t.act a).state.present u = t.state.present u ∧ (t.act a).held u = t.held u + waited [a] := by
  cases a with
  | drive j => exact t.drive_of_undisturbed h
  | wait n => exact ⟨rfl, t.wait_held n u⟩
  | sample v => exact ⟨t.sample_present v u, t.sample_held v u⟩

/-- A list of actions that do not disturb a group keeps its operands too, and its holding time grows by all the time
taken. -/
theorem Timed.run_of_undisturbed {actions : List HostAction}
    (h : ∀ a ∈ actions, a.disturbs (t.state.present u) = false) :
    (t.run actions).state.present u = t.state.present u ∧ (t.run actions).held u = t.held u + waited actions := by
  induction actions generalizing t with
  | nil => exact ⟨rfl, rfl⟩
  | cons a as ih =>
    obtain ⟨ha, has⟩ := List.forall_mem_cons.mp h
    obtain ⟨hpresent, hheld⟩ := t.act_of_undisturbed ha
    obtain ⟨hpresent', hheld'⟩ := ih (t.act a) (by rwa [hpresent])
    rw [Timed.run_cons, hpresent', hpresent, hheld', hheld, waited_cons a as, Nat.add_assoc]
    exact ⟨rfl, rfl⟩

/-- A settled sample writes down the operands present with their unit's result, and uses no free value. -/
theorem Timed.sample_of_settled (h : Config.tSettle ≤ t.held u) :
    t.sample u = { t with state := t.state.record (t.state.present u) (resultByte (t.state.present u)) } := by
  rw [Timed.sample, if_pos h, State.sample_eq_record]

/-- After actions that leave a group's operands as they are, a sample of a group held long enough shows the unit's
value for those operands. -/
theorem Timed.run_sample_of_undisturbed {actions : List HostAction}
    (h : ∀ a ∈ actions, a.disturbs (t.state.present u) = false)
    (hheld : Config.tSettle ≤ t.held u + waited actions) :
    (t.run actions).sample u = { t.run actions with
      state := (t.run actions).state.record (t.state.present u) (resultByte (t.state.present u)) } := by
  obtain ⟨hpresent, htime⟩ := t.run_of_undisturbed h
  rw [Timed.sample_of_settled _ (htime ▸ hheld), hpresent]

end

end Sys2Proof.Machine

namespace Sys2Proof

open Machine

/-- Settles O41: the observations of a run are the outcomes of its operations, and performing an operation in any state
adds its outcome. -/
theorem sequenceOutcomeIsTheListOfOutcomes : Obligations.SequenceOutcomeIsTheListOfOutcomes := by
  intro ops rest s hpending
  obtain ⟨t, hrun, hrest, hobserved⟩ := run_encoded_adds_outcomes ops rest s hpending
  refine ⟨t, ops.map outcome, hrun, hrest, hobserved, by simp [Function.comp_def, outcome], ?_⟩
  intro o ho u
  obtain ⟨i, -, rfl⟩ := List.mem_map.mp ho
  obtain ⟨v, hexec, -, hadds⟩ := exec_adds_outcome i u
  exact ⟨v, hexec, hadds⟩

/-- Settles O43: a step that is not idle performs the operation its first word was written for. -/
theorem stepTakesOneWordAndAddsOneObservation : Obligations.StepTakesOneWordAndAddsOneObservation := by
  intro s t h
  obtain hidle | ⟨i, hpending, hobserved⟩ := step_next_cases h
  · exact .inl hidle
  · exact .inr ⟨_, outcome i, hpending, hobserved, rfl⟩

/-- Settles O50: undisturbed operands stay present and held, so the sample is a settled one of them. -/
theorem stableInputsCarryTheUnitsValue : Obligations.StableInputsCarryTheUnitsValue := by
  intro t u actions hstable hheld
  rw [t.run_sample_of_undisturbed hstable hheld]
  exact ⟨rfl, rfl⟩

/-- Settles O46: the drive puts the operands on the group, and what does not drive it again leaves them stable. -/
theorem settledSampleGivesTheUnitsValue : Obligations.SettledSampleGivesTheUnitsValue := by
  intro t i actions hothers hwaited
  have hpresent : (t.drive i).state.present i.unit = i := by simp
  have hsample := (t.drive i).run_sample_of_undisturbed (u := i.unit) (actions := actions)
    (fun a ha => by rw [hpresent]; exact HostAction.not_disturbs_of_not_drives (hothers a ha))
    (Nat.le_add_left_of_le hwaited)
  have hrun : t.run (.drive i :: actions ++ [.sample i.unit]) = ((t.drive i).run actions).sample i.unit :=
    Timed.run_append t (.drive i :: actions) [.sample i.unit]
  rw [hrun, hsample, hpresent]
  exact ⟨_, rfl⟩

end Sys2Proof

/-! ### The whole machine: safe runs, lawful observations, pure operations; an operation as drive, hold and sample -/

namespace Sys2Proof.Machine

/-! #### Safe states (30_encoding.md R73, 60_exceptions.md R176) -/

theorem step_of_pending_nil {s : State} (h : s.pending = []) : step s = .next s := by
  rw [step, State.fetch_of_nil s h]

theorem State.safe_iff {s : State} : s.safe = true ↔ ∀ w ∈ s.pending, validWord w = true := List.all_eq_true

/-- A safe state steps, and to a safe state: its first word, if there is one, is the word of an operation, and the
step leaves the words behind it pending. -/
theorem step_of_safe {s : State} (h : s.safe = true) : ∃ t : State, step s = .next t ∧ t.safe = true := by
  cases hpending : s.pending with
  | nil => exact ⟨s, step_of_pending_nil hpending, h⟩
  | cons w rest =>
    rw [State.safe_iff, hpending, List.forall_mem_cons] at h
    obtain ⟨hw, hrest⟩ := h
    obtain ⟨i, rfl⟩ := validWord_iff.mp hw
    obtain ⟨t, hexec, hleft, -⟩ := exec_adds_outcome i { s with pending := rest }
    exact ⟨t, (step_of_encodeWord hpending).trans hexec, State.safe_iff.mpr (hleft ▸ hrest)⟩

/-! #### What each unit's observation promises -/

section
variable {y : Byte}

theorem Observation.lawful_rem_iff {d : Codeword} {g : Generator} :
    Observation.lawful ⟨.rem d g, y⟩ = true ↔
      y.extractLsb' 3 5 = 0 ∧ (g.getLsbD 3 = true → rem (d ^^^ y.extractLsb' 0 7) g = 0) := by
  simp [Observation.lawful, imp_iff_not_or]

theorem Observation.lawful_enc_iff {b : Byte} :
    Observation.lawful ⟨.enc b, y⟩ = true ↔
      y.getLsbD 7 = false ∧ y.extractLsb' 3 4 = encMasked b ∧ rem (y.extractLsb' 0 7) gen = 0 := by
  simp [Observation.lawful, encMasked, and_assoc]

theorem Observation.lawful_dec_iff {b : Byte} :
    Observation.lawful ⟨.dec b, y⟩ = true ↔ y.extractLsb' 4 4 = 0 ∧ weight (encCw y ^^^ decMasked b) ≤ 1 := by
  simp [Observation.lawful, decMasked]

theorem Observation.lawful_syn_iff {k : Syndrome} :
    Observation.lawful ⟨.syn k, y⟩ = true ↔
      y.getLsbD 7 = false ∧ rem (y.extractLsb' 0 7) gen = k ∧ weight y ≤ 1 := by
  simp [Observation.lawful, and_assoc]

end

/-! #### Each unit keeps its promise -/

theorem remByte_extractLsb' (r : Syndrome) : (remByte r).extractLsb' 0 7 = r.setWidth 7 := by
  ext i hi
  simp [remByte, show i < 8 by omega]

/-- A zero-extended codeword cut to its low 7 bits is the codeword. -/
theorem codewordByte_low_bits (c : Codeword) : (codewordByte c).extractLsb' 0 7 = c :=
  decMasked_codewordByte c

/-- The bit put in front by the zero-extension is clear. -/
theorem weight_codewordByte (c : Codeword) : weight (codewordByte c) = weight c := by
  have hlow : (List.range 7).countP ((codewordByte c).getLsbD ·) = (List.range 7).countP (c.getLsbD ·) :=
    List.countP_congr fun i hi => by
      have hi : i < 8 := (List.mem_range.mp hi).trans (by decide)
      simp [codewordByte, hi]
  rw [weight, List.range_succ, List.countP_append, hlow, List.countP_singleton, codewordByte_getLsbD_seven]
  rfl

/-- The decoded message's codeword is the corrected word. -/
theorem encCw_dec (b : Byte) : encCw (dec b) = correctedWord (decMasked b) := by
  rw [dec_eq_correctedWord, messageByte, encCw_eq_messageCodeword, encMasked_setWidth,
    messageCodeword_of_rem (rem_correctedWord _)]

/-- Every operation's outcome keeps the spec's promise of its unit: dividend and remainder have the same remainder
(40_remainder.md R94), a codeword has none (41_encoder.md R115), the correction is a mask (42_decoder.md R136), and a
mask's syndrome is its index (43_syndrome_table.md R153). -/
theorem outcome_lawful (i : Instr) : (outcome i).lawful = true := by
  cases i with
  | rem d g =>
    refine Observation.lawful_rem_iff.mpr ⟨remByte_high_bits _, fun _ => ?_⟩
    rw [resultByte, remByte_extractLsb', rem_xor, rem_setWidth]
    exact BitVec.xor_self
  | enc b =>
    rw [outcome, Observation.lawful_enc_iff, resultByte, enc, encCw_eq_messageCodeword, codewordByte_low_bits,
      codewordByte_extractLsb' (by decide)]
    exact ⟨codewordByte_getLsbD_seven _, messageBits_messageCodeword _, rem_messageCodeword _⟩
  | dec b =>
    refine Observation.lawful_dec_iff.mpr ⟨messageByte_high_bits _, ?_⟩
    rw [resultByte, encCw_dec, BitVec.xor_comm, xor_correctedWord]
    exact weight_synrom_le_one _
  | syn k =>
    rw [outcome, Observation.lawful_syn_iff, resultByte, codewordByte_low_bits, weight_codewordByte]
    exact ⟨codewordByte_getLsbD_seven _, rem_synrom k, weight_synrom_le_one k⟩

theorem State.lawful_iff {s : State} : s.lawful = true ↔ ∀ o ∈ s.observed, o.lawful = true := List.all_eq_true

/-- One more outcome keeps the observations lawful. -/
theorem State.lawful_of_adds_outcome {s t : State} {i : Instr} (hs : s.lawful = true)
    (h : t.observed = s.observed ++ [outcome i]) : t.lawful = true := by
  rw [State.lawful_iff, h, List.forall_mem_append, List.forall_mem_singleton]
  exact ⟨State.lawful_iff.mp hs, outcome_lawful i⟩

/-! #### An operation as a drive and one more observation, and the same operation again (20_memory.md R45) -/

@[simp] theorem State.drive_pending (s : State) (i : Instr) : (s.drive i).pending = s.pending := by cases i <;> rfl
@[simp] theorem State.drive_observed (s : State) (i : Instr) : (s.drive i).observed = s.observed := by cases i <;> rfl

theorem exec_eq_drive_record (i : Instr) (s : State) : exec i s = .next ((s.drive i).record i (resultByte i)) := by
  rw [exec_eq_drive_sample, State.sample_eq_record, State.drive_present]

/-- An operation whose operands are already at its port changes no wire. -/
theorem exec_of_present {s : State} {i : Instr} (h : s.present i.unit = i) :
    exec i s = .next (s.record i (resultByte i)) := by
  have hdrive := s.drive_self i.unit
  rw [h] at hdrive
  rw [exec_eq_drive_record, hdrive]

/-! #### The decoder a host builds from `REM` and `SYN` (95_test_vectors.md section 4, P2) -/

/-- The syndrome of the received word, the mask for it, and the unit's own answer to compare with. -/
def hostDecoder (b : Byte) : List Instr := [synd (decMasked b), .syn (decSyndrome b), .dec b]

/-- The first operation yields the index of the second. -/
theorem hostDecoder_outcomes (b : Byte) :
    (hostDecoder b).map outcome = [⟨synd (decMasked b), (decSyndrome b).setWidth 8⟩,
      ⟨.syn (decSyndrome b), (syn (decSyndrome b)).setWidth 8⟩, ⟨.dec b, dec b⟩] := rfl

/-! #### A table word put in front of the sequence (30_encoding.md R73) -/

theorem decodeTableWord_eq_some_iff {nbits w : Nat} {i : Instr} :
    decodeTableWord nbits w = some i ↔ decodeWord (tableWord nbits w) = .operation i := by
  rw [decodeTableWord]
  cases decodeWord (tableWord nbits w) <;> simp

theorem decodeTableWord_eq_none_iff {nbits w : Nat} :
    decodeTableWord nbits w = none ↔ decodeWord (tableWord nbits w) = .invalidOperationWord := by
  rw [decodeTableWord]
  cases decodeWord (tableWord nbits w) <;> simp

/-! #### Drive, hold, sample (70_reset_and_hazards.md R194) -/

section
variable (t : Timed) (i : Instr) (n : Nat)

@[simp] theorem Timed.wait_early : (t.wait n).early = t.early := rfl

theorem Timed.run_drive_wait_sample :
    t.run [.drive i, .wait n, .sample i.unit] = ((t.drive i).wait n).sample i.unit := rfl

/-- How long the operands driven have been at the port when they are sampled. -/
theorem Timed.drive_wait_held :
    ((t.drive i).wait n).held i.unit = (if t.state.present i.unit = i then t.held i.unit else 0) + n := by
  rw [Timed.wait_held, Timed.drive_held]

/-- An early sample writes down the operands present with a free value (93_implementation_defined.md U7). -/
theorem Timed.sample_of_early {u : PortGroup} (h : t.held u < Config.tSettle) :
    t.sample u = { t with
      state := t.state.record (t.state.present u) (portByte u (Config.unsettledOutput t.early))
      early := t.early + 1 } := by
  rw [Timed.sample, if_neg (Nat.not_le_of_lt h)]

end

end Sys2Proof.Machine

namespace Sys2Proof

open Machine

/-! #### The statements -/

/-- Settles O8, by induction on the length of the run: a safe state steps to a safe state. -/
theorem safeRunsNeverStop : Obligations.SafeRunsNeverStop := by
  intro n
  induction n with
  | zero => exact fun s hs => ⟨s, rfl, hs⟩
  | succ n ih =>
    intro s hs
    obtain ⟨u, hstep, hu⟩ := step_of_safe hs
    obtain ⟨t, hrun, ht⟩ := ih u hu
    exact ⟨t, (run_succ_of_step n hstep).trans hrun, ht⟩

/-- Settles O44: a step adds nothing, or the outcome of an operation, which is lawful. -/
theorem stepKeepsObservationsLawful : Obligations.StepKeepsObservationsLawful := by
  intro s t hs hstep
  obtain ⟨-, rfl⟩ | ⟨i, -, hobserved⟩ := step_next_cases hstep
  · exact hs
  · exact State.lawful_of_adds_outcome hs hobserved

/-- Settles O28: the two operations add their outcomes, and decoding a codeword with an error of at most one bit gives
its message. -/
theorem encodeFlipDecodeRecoversTheMessage : Obligations.EncodeFlipDecodeRecoversTheMessage := by
  intro s b e rest he hpending
  obtain ⟨t, hrun, hrest, hobserved⟩ :=
    run_encoded_adds_outcomes [.enc b, .dec (enc b ^^^ e.setWidth 8)] rest s hpending
  have hdec : dec (enc b ^^^ e.setWidth 8) = (b.extractLsb' 0 4).setWidth 8 := by
    rw [← enc_masked b, dec_received_of_weight_le_one _ he]
  refine ⟨t, hrun, hrest, ?_⟩
  rw [hobserved, ← hdec]
  rfl

/-- Settles O36: the host's syndrome and mask are those the decoder uses inside. -/
theorem hostBuiltDecoderAgreesWithDec : Obligations.HostBuiltDecoderAgreesWithDec := by
  intro s b rest
  obtain ⟨t, hrun, hrest, hobserved⟩ := run_encoded_adds_outcomes (hostDecoder b) rest
    { s with pending := (hostDecoder b).map encodeWord ++ rest } rfl
  rw [hostDecoder_outcomes, dec_eq_correctedWord] at hobserved
  exact ⟨decSyndrome b, syn (decSyndrome b), t, hrun, hrest, hobserved⟩

/-- Settles O47: the sample after the hold is a settled one, of the operands driven. -/
theorem execIsDriveHoldSample : Obligations.ExecIsDriveHoldSample := by
  intro t i n hn
  have hheld : Config.tSettle ≤ ((t.drive i).wait n).held i.unit := by
    rw [Timed.drive_wait_held]
    exact Nat.le_add_left_of_le hn
  rw [Timed.run_drive_wait_sample, Timed.sample_of_settled _ hheld, exec_eq_drive_record]
  simp

/-- Settles O4: a word that decodes to an operation is that operation's word. -/
theorem stepPerformsTheDecodedOperation : Obligations.StepPerformsTheDecodedOperation := by
  intro s w rest i hpending hdecode
  obtain rfl := encodeWord_of_decodeWord hdecode
  exact step_of_encodeWord hpending

/-- Settles O9: the placed word is the first one pending, and taking it off gives the state back. -/
theorem placedTableWordIsPerformedNext : Obligations.PlacedTableWordIsPerformedNext := by
  intro s nbits w
  have hpending : (s.withFetchWord nbits w).pending = tableWord nbits w :: s.pending := rfl
  constructor
  · intro i h
    exact stepPerformsTheDecodedOperation _ _ _ i hpending (decodeTableWord_eq_some_iff.mp h)
  · intro h
    exact (step_refused_iff_invalid hpending).mpr (decodeTableWord_eq_none_iff.mp h)

/-- Settles O10: there is no word to take. -/
theorem endedSequenceStepsIdly : Obligations.EndedSequenceStepsIdly := fun _ h => step_of_pending_nil h

/-- Settles O40: the result is the operation's result byte, and afterwards its operands are at the port. -/
theorem operationsArePureAndIdempotent : Obligations.OperationsArePureAndIdempotent := by
  intro i
  refine ⟨resultByte i, fun s => ⟨_, exec_eq_drive_record i s, ?_, ?_, ?_⟩⟩
  · rw [State.record_observed, State.drive_observed]
  · rw [State.record_pending, State.drive_pending]
  · exact exec_of_present (by rw [State.record_present, State.drive_present])

/-- Settles O45: an empty list of words is safe, an empty list of observations lawful, and a port is defined as its
unit's function of its inputs. -/
theorem resetHasNothingPendingOrObserved : Obligations.ResetHasNothingPendingOrObserved :=
  ⟨rfl, rfl, rfl, rfl, fun _ => ⟨rfl, rfl, rfl, rfl⟩⟩

/-- Settles O48: the operands driven have been at the port too short a time, so the sample is an early one of them. -/
theorem earlySampleIsAFreeValue : Obligations.EarlySampleIsAFreeValue := by
  intro t i n hn
  rw [← Timed.drive_wait_held] at hn
  rw [Timed.run_drive_wait_sample, Timed.sample_of_early _ hn]
  simp

end Sys2Proof
